-- ==== Sys2Proof/Word.lean ====
section
/-! DEFINITION. The word types of the my-own-vm CPU (spec/00_scope.md R5, R6). Every value is an
unsigned bit vector of a stated width or a natural number; bit 0 is the least significant bit. -/

namespace Sys2Proof

/-- A general register, a cell of data memory, an operand: `XLEN` = 8 bits (R5). -/
abbrev Byte := BitVec 8

/-- One instruction word, 16 bits, one per slot of the program (R91). -/
abbrev InstrWord := BitVec 16

/-- A slot index as the program counter holds it: `PCW` = 9 bits (R5, R23). -/
abbrev Slot := BitVec 9

/-- One cell of the call/argument stack: `STKW` = 9 bits (R5, R35). -/
abbrev StackCell := BitVec 9

end Sys2Proof
end

