-- ==== Sys2Proof/Config.lean ====
section
/-! DEFINITION. The parameters of the machine and the values this hardware takes
(spec/00_scope.md R5). The one parameter the spec leaves OPEN, `STACK_DEPTH`, is a field of State. -/

namespace Sys2Proof.Config

/-- `MEM_SIZE`, the number of bytes of data memory (R5, R60, decision D16). -/
def memSize : Nat := 256

/-- The greatest number of instruction slots a program may have (R5 `PROG_LEN`, R254). -/
def maxProgLen : Nat := 256

/-- `IO_IN`, the address of the input buffer (R5, R66). -/
def ioIn : Nat := 0xF0

/-- `IO_OUT`, the address of the output buffer (R5, R66). -/
def ioOut : Nat := 0xF1

/-- `IO_CNT`, the address of the output-ready counter (R5, R66). -/
def ioCnt : Nat := 0xF2

/-- `VAR_BASE`, the first address the compiler gives a variable (R5, R66): a convention of software,
which no rule of the machine reads. -/
def varBase : Nat := 16

/-- What an address that the memory does not list reads as: "Memory starts zeroed" (R42). -/
def unlistedByte : Byte := 0

/-- The value of the open parameter `STACK_DEPTH` in `State.reset`: unbounded, with which "the model
equals the source" (92_eei_decisions.md D12). DESIGN CHOICE, unsafe (log 1). -/
def stackDepthAtReset : Option Nat := none

end Sys2Proof.Config
end

