-- ==== Sys2Proof/Machine/State.lean ====
section
/-! DEFINITION. The state of the machine as plain data (spec/10_state.md), the reasons an operation can
stop, and the state after reset (R42). -/

namespace Sys2Proof.Machine

/-- The `stop_cause` register: why `running` was cleared (R33). -/
inductive StopCause where
  | none
  | halt
  | exhausted
  | retEmpty
  | fault
  deriving DecidableEq, Repr

/-- The number of each stop cause (R33). -/
def StopCause.code : StopCause → BitVec 3
  | .none => 0
  | .halt => 1
  | .exhausted => 2
  | .retEmpty => 3
  | .fault => 4

/-- The `fault_code` register (R33, R211). -/
inductive FaultCode where
  | none
  | outOfBounds
  | stackUnderflow
  | unknownInstruction
  | stackOverflow
  deriving DecidableEq, Repr

/-- The number of each fault code (R33, R211). -/
def FaultCode.code : FaultCode → BitVec 3
  | .none => 0
  | .outOfBounds => 1
  | .stackUnderflow => 2
  | .unknownInstruction => 3
  | .stackOverflow => 4

/-- The non-fatal diagnostics (spec/60_exceptions.md R219). -/
inductive Diagnostic where
  /-- DIV with `B == 0`. -/
  | divideByZero
  /-- RET with `sp == 0`. -/
  | returnOnEmptyStack
  deriving DecidableEq, Repr

/-- The run states, read off `running` and `stop_cause` (R31). -/
inductive RunState where
  | idle
  | running
  | halted
  deriving DecidableEq, Repr

/-- Data memory as (address, byte) pairs in canonical form (`Memory.wf`): addresses strictly rising,
no byte equal to what an unlisted address reads as. -/
abbrev Memory := List Host.Cell

/-- The whole state of the machine (spec/10_state.md, head paragraph): "Nothing else is state". -/
@[ext]
structure State where
  /-- The primary register `A` (R20). -/
  a : Byte
  /-- The secondary register `B` (R20). -/
  b : Byte
  /-- The program counter, a slot index (R23). -/
  pc : Slot
  /-- The zero flag `Z` (R26). -/
  z : Bool
  /-- The carry flag `C` (R26). -/
  c : Bool
  /-- The running flag (R31). -/
  running : Bool
  /-- Why `running` was cleared (R33). -/
  stopCause : StopCause
  /-- Which fault stopped the machine (R33). -/
  faultCode : FaultCode
  /-- What the fault recorded (R33). -/
  faultInfo : BitVec 9
  /-- The stack (R35), TOP FIRST: the head of the list is `stk[sp-1]`, its last entry `stk[0]`
  (`State.stkAt`; log 10). -/
  stk : List StackCell
  /-- Data memory (R60). -/
  mem : Memory
  /-- The program `IMem`, slot `i` at index `i` (R38; log 3). -/
  imem : List InstrWord
  /-- The output log, oldest first (R39). -/
  outLog : List Byte
  /-- The diagnostic log, oldest first (R39). -/
  diagLog : List Diagnostic
  /-- The open parameter `STACK_DEPTH`: `none` is unbounded (R5; log 1). No instruction and no host
  operation changes it. -/
  stackDepth : Option Nat
  deriving DecidableEq, Repr

/-- `sp`, the number of entries on the stack (R32). -/
def State.sp (s : State) : Nat := s.stk.length

/-- `stk[i]`: `stk[0]` is the oldest entry and `stk[sp-1]` the top; a cell at or above `sp` holds no
value (R35, R37). -/
def State.stkAt (s : State) (i : Nat) : Option StackCell := s.stk.reverse[i]?

/-- `PROG_LEN`, the number of slots of the loaded program (R38). -/
def State.progLen (s : State) : Nat := s.imem.length

/-- The run state (R31). The fourth combination, running with a stop cause, is reached by no run
(`State.Inv`) and counts as running. -/
def State.runState (s : State) : RunState :=
  if s.running then .running else if s.stopCause = .none then .idle else .halted

/-- The reasons an operation fails with an error to its caller, leaving the state as it was. No step
answers one: a fault of R211 is a next state with `stop_cause = FAULT` (R212; log 5). -/
inductive Fault where
  /-- A direct access of the host to an address outside `[0, MEM_SIZE)` (R64, R76, R213). Raised by
  `presetByte` and `readByte` only; safe, but for what log 7 says of the state left behind. -/
  | outOfBounds (address : Nat)
  deriving DecidableEq, Repr

/-- The reasons an operation is refused. No step answers one. -/
inductive Refusal where
  /-- An instruction without a meaning in `exec`; no arm answers it. Safe. -/
  | notModelled (mnemonic : String)
  /-- `loadProgram` while the machine is running (R254, U13). Safe. -/
  | loadWhileRunning
  /-- `loadProgram` of a program of more than 256 words (R254, U13). Safe. -/
  | programTooLong (length : Nat)
  /-- `presetByte` when the machine is not idle (R254, R76). Safe. -/
  | presetNotIdle
  /-- `run` when the machine is not idle (R254, R255, U13). Safe. -/
  | runNotIdle
  /-- A read of the end state, or of a byte of memory, when the machine is not halted (R254, R257).
  Safe. -/
  | readNotHalted
  deriving DecidableEq, Repr

/-- The machine right after reset (R42, R250): idle, every register and flag zero, memory zero, the
stack and the logs empty. The program, which `load_program` gives, is empty here (log 6). -/
def State.reset : State where
  a := 0
  b := 0
  pc := 0
  z := false
  c := false
  running := false
  stopCause := .none
  faultCode := .none
  faultInfo := 0
  stk := []
  mem := []
  imem := []
  outLog := []
  diagLog := []
  stackDepth := Config.stackDepthAtReset

end Sys2Proof.Machine
end

