-- ==== Sys2Proof/Machine/Flags.lean ====
section
/-! DEFINITION. The results and the flags of the ALU (spec/41_alu.md, spec/10_state.md R26 to R30).
Results are computed exactly on natural numbers or integers and then masked with 0xFF (R140). -/

namespace Sys2Proof.Machine

/-- `n & 0xFF` for a natural number (R6, R22). -/
def maskNat (n : Nat) : Byte := BitVec.ofNat 8 n

/-- `n & 0xFF` for an integer: the non-negative residue modulo 256 (R6). PRESUMED: the spec marks this
reading of a negative difference as general knowledge (93 G1; log 13). -/
def maskInt (n : Int) : Byte := BitVec.ofInt 8 n

/-- ADD (R141). -/
def aluAdd (a b : Byte) : Byte := maskNat (a.toNat + b.toNat)

/-- SUB (R142). -/
def aluSub (a b : Byte) : Byte := maskInt ((a.toNat : Int) - (b.toNat : Int))

/-- MUL: the low 8 bits of the product (R143). -/
def aluMul (a b : Byte) : Byte := maskNat (a.toNat * b.toNat)

/-- DIV: `floor(a / b)`, and 0 for `b = 0` (R144). -/
def aluDiv (a b : Byte) : Byte := if b = 0 then 0 else maskNat (a.toNat / b.toNat)

/-- AND (R145). -/
def aluAnd (a b : Byte) : Byte := a &&& b

/-- OR (R146). -/
def aluOr (a b : Byte) : Byte := a ||| b

/-- XOR (R147). -/
def aluXor (a b : Byte) : Byte := a ^^^ b

/-- SHL: by one, bit 0 becomes 0 (R148). -/
def aluShl (a : Byte) : Byte := maskNat (a.toNat <<< 1)

/-- SHR: by one, logical, bit 7 becomes 0 (R149). -/
def aluShr (a : Byte) : Byte := maskNat (a.toNat >>> 1)

/-- `Z` after a write of `v` to `A`: true iff the value is zero, in both directions (R28). -/
def zeroFlagOf (v : Byte) : Bool := v == 0

/-- `C` after SHL: the bit shifted out, the old `A[7]` (R29, R148). -/
def carryOfShl (a : Byte) : Bool := a.getLsbD 7

/-- `C` after SHR: the bit shifted out, the old `A[0]` (R29, R149). -/
def carryOfShr (a : Byte) : Bool := a.getLsbD 0

/-- `Z` after CMP: the registers are equal (R27, R150). -/
def zeroFlagOfCmp (a b : Byte) : Bool := a == b

/-- `C` after CMP: `A < B`, unsigned (R29, R150). -/
def carryOfCmp (a b : Byte) : Bool := decide (a.toNat < b.toNat)

end Sys2Proof.Machine
end

