-- ==== Sys2Proof/Machine/Operands.lean ====
section
/-! DEFINITION. Operand assembly (spec/30_encoding.md R92, R93): "The operand is used exactly as its 8
bits stand". Nothing is sign-extended, scaled, shifted or relative to `pc`. -/

namespace Sys2Proof.Machine

/-- Format I: the immediate is the value `k` (R93). -/
def immediate (k : Byte) : Byte := k

/-- Format M: the data address is `k`, absolute (R61, R93). -/
def dataAddress (k : Byte) : Nat := k.toNat

/-- Format T: the target is `zext_9(k)`, a slot index (R93). -/
def target (k : Byte) : Slot := k.zeroExtend 9

/-- The cell a register value is pushed as: `zext_9(v)` (R191). -/
def cellOf (v : Byte) : StackCell := v.zeroExtend 9

/-- The register value of a popped cell: `v[7:0]` (R192, R197). -/
def lowByte (v : StackCell) : Byte := v.extractLsb' 0 8

end Sys2Proof.Machine
end

