-- ==== Sys2Proof/Machine/Ops.lean ====
section
/-! DEFINITION. The named operations over registers, memory, the stack, the logs and the stop-cause
registers that every meaning is built from, and `raise`, the one way a fault is taken. There is no
return from a fault (spec/60_exceptions.md R223), so no operation for one. -/

namespace Sys2Proof.Machine

/-! ### Data memory as canonical data -/

/-- The byte at an address: the listed one, or what an unlisted address reads as (R42, R62). -/
def Memory.peek : Memory → Nat → Byte
  | [], _ => Config.unlistedByte
  | (x, v) :: m, addr => if x = addr then v else Memory.peek m addr

/-- The memory without an entry for an address. -/
def Memory.erase (m : Memory) (addr : Nat) : Memory := m.filter fun cell => cell.1 ≠ addr

/-- A new entry at its place in the rising order. -/
def Memory.insert : Memory → Nat → Byte → Memory
  | [], addr, v => [(addr, v)]
  | cell :: m, addr, v =>
    if addr < cell.1 then (addr, v) :: cell :: m else cell :: Memory.insert m addr v

/-- The memory with one byte stored; writing what an unlisted address reads as removes the entry. -/
def Memory.poke (m : Memory) (addr : Nat) (v : Byte) : Memory :=
  if v = Config.unlistedByte then m.erase addr else (m.erase addr).insert addr v

/-- The canonical form: addresses strictly rising and below `MEM_SIZE`, no entry that reads as an
unlisted address does. -/
def Memory.wf (m : Memory) : Bool :=
  decide (m.Pairwise fun x y => x.1 < y.1) &&
    m.all fun cell => decide (cell.1 < Config.memSize) && decide (cell.2 ≠ Config.unlistedByte)

/-! ### Faults and diagnostics -/

/-- A fault of R211 with what it records. -/
inductive RuntimeFault where
  | outOfBounds (address : Nat)
  | stackUnderflow
  | unknownInstruction (op : Byte)
  | stackOverflow
  deriving DecidableEq, Repr

/-- The fault code of each fault (R211). -/
def faultCodeOf : RuntimeFault → FaultCode
  | .outOfBounds _ => .outOfBounds
  | .stackUnderflow => .stackUnderflow
  | .unknownInstruction _ => .unknownInstruction
  | .stackOverflow => .stackOverflow

/-- What each fault puts in `fault_info`, zero-extended to 9 bits (R211, R212; log 19). -/
def faultInfoOf : RuntimeFault → BitVec 9
  | .outOfBounds address => BitVec.ofNat 9 address
  | .unknownInstruction op => op.zeroExtend 9
  | .stackUnderflow | .stackOverflow => 0

/-- `raise <Fault>(info)`: nothing changes but `running`, `stop_cause`, `fault_code` and `fault_info`;
`pc` keeps the address of the faulting instruction (R212). -/
def raise (f : RuntimeFault) (s : State) : State :=
  { s with running := false, stopCause := .fault, faultCode := faultCodeOf f, faultInfo := faultInfoOf f }

/-- The end of an instruction that may raise: its result, or the fault raised in the state BEFORE the
instruction, so that a faulting instruction has no effect (R212). -/
def settle (s : State) (r : Except RuntimeFault State) : Host.Outcome State Fault Refusal :=
  match r with
  | .ok s' => .next s'
  | .error f => .next (raise f s)

/-- `Diag(kind)`: appended to the diagnostic log, nothing else (R219). -/
def diag (d : Diagnostic) (s : State) : State := { s with diagLog := s.diagLog ++ [d] }

/-- A stop that is no fault: `running` is cleared and the cause recorded (R31, R33). -/
def stopWith (cause : StopCause) (s : State) : State := { s with running := false, stopCause := cause }

/-! ### Program counter, registers, flags -/

/-- The default step `pc <- pc + 1` (R8, R24). -/
def advance (s : State) : State := { s with pc := s.pc + 1 }

/-- `pc <- t` (R24). -/
def jumpTo (t : Slot) (s : State) : State := { s with pc := t }

/-- A write of `A`, after which `Z` is recomputed: "the zero flag is recomputed after every operation
that writes the primary register" (R27, R28). -/
def writeA (v : Byte) (s : State) : State := { s with a := v, z := zeroFlagOf v }

/-- A write of `B`, which writes no flag (R27). -/
def writeB (v : Byte) (s : State) : State := { s with b := v }

/-- A write of `C` (R29). -/
def setC (c : Bool) (s : State) : State := { s with c := c }

/-- A write of both flags from a comparison (R150). -/
def setFlags (z c : Bool) (s : State) : State := { s with z := z, c := c }

/-! ### Data memory -/

/-- `MemRead(a, 1)` with its bounds check; `size` is `MEM_SIZE` (R62; log 2). -/
def memRead (size addr : Nat) (s : State) : Except RuntimeFault Byte :=
  if size ≤ addr then .error (.outOfBounds addr) else .ok (s.mem.peek addr)

/-- `Output(v)` with what the output device does in the same step: it clears the buffer and counts the
output modulo 256 (R63, R68, R69). -/
def recordOutput (v : Byte) (s : State) : State :=
  let cleared := s.mem.poke Config.ioOut 0
  { s with
    outLog := s.outLog ++ [v]
    mem := cleared.poke Config.ioCnt (cleared.peek Config.ioCnt + 1) }

/-- The store of `MemWrite` after its bounds check: the byte, and the device if the address is `IO_OUT`
(R63). -/
def storeByte (addr : Nat) (v : Byte) (s : State) : State :=
  let stored := { s with mem := s.mem.poke addr v }
  if addr = Config.ioOut then recordOutput v stored else stored

/-- `MemWrite(a, 1, v)` with its bounds check; `size` is `MEM_SIZE` (R63; log 2). -/
def memWrite (size addr : Nat) (v : Byte) (s : State) : Except RuntimeFault State :=
  if size ≤ addr then .error (.outOfBounds addr) else .ok (storeByte addr v s)

/-! ### The stack -/

/-- The full condition of a finite stack: `sp == STACK_DEPTH` (R36, R258). -/
def stackFull (s : State) : Bool := s.stackDepth == some s.sp

/-- `StackPush(v)` (R36). -/
def stackPush (v : StackCell) (s : State) : Except RuntimeFault State :=
  if stackFull s then .error .stackOverflow else .ok { s with stk := v :: s.stk }

/-- `StackPop()` (R37). -/
def stackPop (s : State) : Except RuntimeFault (StackCell × State) :=
  match s.stk with
  | [] => .error .stackUnderflow
  | v :: rest => .ok (v, { s with stk := rest })

/-- POPP's stack operation: the entry under the top is removed, "the top entry moves down one cell and
keeps its value" (R197). It is `StackPop; StackPop; StackPush`, whose push "cannot overflow" (log 12). -/
def stackPopUnder (s : State) : Except RuntimeFault (StackCell × State) :=
  match s.stk with
  | r :: v :: rest => .ok (v, { s with stk := r :: rest })
  | _ => .error .stackUnderflow

end Sys2Proof.Machine
end

