-- ==== Sys2Proof/Machine/Alu.lean ====
section
/-! DEFINITION. Arithmetic, logic, shift and compare (spec/41_alu.md). The sources are `A` and `B`, the
destination, where there is one, is `A`; `B` is never written and none can fault (R140). -/

namespace Sys2Proof.Machine

/-- ADD; `C` is not written (R141). -/
def execAdd (s : State) : Host.Outcome State Fault Refusal :=
  .next (advance (writeA (aluAdd s.a s.b) s))

/-- SUB; `C` is not written (R142). -/
def execSub (s : State) : Host.Outcome State Fault Refusal :=
  .next (advance (writeA (aluSub s.a s.b) s))

/-- MUL; `C` is not written (R143). -/
def execMul (s : State) : Host.Outcome State Fault Refusal :=
  .next (advance (writeA (aluMul s.a s.b) s))

/-- DIV: a zero divisor gives 0 and a DivideByZero diagnostic, and execution continues (R144). -/
def execDiv (s : State) : Host.Outcome State Fault Refusal :=
  .next (advance (writeA (aluDiv s.a s.b) (if s.b = 0 then diag .divideByZero s else s)))

/-- AND (R145). -/
def execAnd (s : State) : Host.Outcome State Fault Refusal :=
  .next (advance (writeA (aluAnd s.a s.b) s))

/-- OR (R146). -/
def execOr (s : State) : Host.Outcome State Fault Refusal :=
  .next (advance (writeA (aluOr s.a s.b) s))

/-- XOR (R147). -/
def execXor (s : State) : Host.Outcome State Fault Refusal :=
  .next (advance (writeA (aluXor s.a s.b) s))

/-- SHL: the bit shifted out goes to `C` (R148). -/
def execShl (s : State) : Host.Outcome State Fault Refusal :=
  .next (advance (writeA (aluShl s.a) (setC (carryOfShl s.a) s)))

/-- SHR: logical, the bit shifted out goes to `C` (R149). -/
def execShr (s : State) : Host.Outcome State Fault Refusal :=
  .next (advance (writeA (aluShr s.a) (setC (carryOfShr s.a) s)))

/-- CMP: both flags from the comparison, no register changes (R150). -/
def execCmp (s : State) : Host.Outcome State Fault Refusal :=
  .next (advance (setFlags (zeroFlagOfCmp s.a s.b) (carryOfCmp s.a s.b) s))

end Sys2Proof.Machine
end

