-- ==== Sys2Proof/Machine/Control.lean ====
section
/-! DEFINITION. Jumps and halt (spec/42_jump_halt.md). A target `>= PROG_LEN` is no fault: the run ends
EXHAUSTED at the next fetch (R170). -/

namespace Sys2Proof.Machine

/-- JMP k (R171). -/
def execJmp (k : Byte) (s : State) : Host.Outcome State Fault Refusal :=
  .next (jumpTo (target k) s)

/-- JZ k: jump if `Z` is true, else fall through (R172). -/
def execJz (k : Byte) (s : State) : Host.Outcome State Fault Refusal :=
  .next (if s.z then jumpTo (target k) s else advance s)

/-- JNZ k: jump if `Z` is false, else fall through (R173). -/
def execJnz (k : Byte) (s : State) : Host.Outcome State Fault Refusal :=
  .next (if s.z then advance s else jumpTo (target k) s)

/-- HALT: stop with cause HALT; `pc` ends one past the HALT (R174). -/
def execHalt (s : State) : Host.Outcome State Fault Refusal :=
  .next (advance (stopWith .halt s))

end Sys2Proof.Machine
end

