-- ==== Sys2Proof/Machine/LoadStore.lean ====
section
/-! DEFINITION. NOP, loads and stores (spec/40_load_store.md). -/

namespace Sys2Proof.Machine

/-- NOP: no state change but the default step (R120). -/
def execNop (s : State) : Host.Outcome State Fault Refusal := .next (advance s)

/-- LDA k: load immediate into the primary register (R121). -/
def execLda (k : Byte) (s : State) : Host.Outcome State Fault Refusal :=
  .next (advance (writeA (immediate k) s))

/-- LDB k: load immediate into the secondary register; no flag (R122). -/
def execLdb (k : Byte) (s : State) : Host.Outcome State Fault Refusal :=
  .next (advance (writeB (immediate k) s))

/-- LDA_MEM k: load the primary register from data memory (R123). -/
def execLdaMem (k : Byte) (s : State) : Host.Outcome State Fault Refusal :=
  settle s ((memRead Config.memSize (dataAddress k) s).map fun v => advance (writeA v s))

/-- LDB_MEM k: load the secondary register from data memory; no flag (R124). -/
def execLdbMem (k : Byte) (s : State) : Host.Outcome State Fault Refusal :=
  settle s ((memRead Config.memSize (dataAddress k) s).map fun v => advance (writeB v s))

/-- STA k: store the primary register; at 0xF1 this is the output instruction (R125). -/
def execSta (k : Byte) (s : State) : Host.Outcome State Fault Refusal :=
  settle s ((memWrite Config.memSize (dataAddress k) s.a s).map advance)

/-- STB k: store the secondary register, the device at 0xF1 included (R126). -/
def execStb (k : Byte) (s : State) : Host.Outcome State Fault Refusal :=
  settle s ((memWrite Config.memSize (dataAddress k) s.b s).map advance)

end Sys2Proof.Machine
end

