-- ==== Sys2Proof/Machine/StackCall.lean ====
section
/-! DEFINITION. Stack, call and return (spec/43_stack_call.md): all five use the one stack. -/

namespace Sys2Proof.Machine

/-- PUSH: push the primary register, zero-extended to 9 bits (R191). -/
def execPush (s : State) : Host.Outcome State Fault Refusal :=
  settle s ((stackPush (cellOf s.a) s).map advance)

/-- POP: pop into the primary register, masked to 8 bits (R192). -/
def execPop (s : State) : Host.Outcome State Fault Refusal :=
  settle s ((stackPop s).map fun r => advance (writeA (lowByte r.1) r.2))

/-- CALL k: push the 9-bit address of the next instruction, then jump (R195). -/
def execCall (k : Byte) (s : State) : Host.Outcome State Fault Refusal :=
  settle s ((stackPush (s.pc + 1) s).map (jumpTo (target k)))

/-- RET: pop all 9 bits into `pc`; on an empty stack, stop with a warning, `pc` unchanged (R196). -/
def execRet (s : State) : Host.Outcome State Fault Refusal :=
  match stackPop s with
  | .error _ => .next (stopWith .retEmpty (diag .returnOnEmptyStack s))
  | .ok (v, s') => .next (jumpTo v s')

/-- POPP: pop the entry under the top into the primary register (R197). -/
def execPopp (s : State) : Host.Outcome State Fault Refusal :=
  settle s ((stackPopUnder s).map fun r => advance (writeA (lowByte r.1) r.2))

end Sys2Proof.Machine
end

