-- ==== Sys2Proof/Syntax.lean ====
section
/-! DEFINITION. The instructions of the my-own-vm CPU: one constructor of `Instr` per row of
spec/opcode_table.json, and the abstract pair form behind the word (spec/30_encoding.md R90, R98). -/

namespace Sys2Proof

/-- The 26 mnemonics, in the order of the opcode map (R95). -/
inductive Mnemonic where
  | NOP | LDA | LDB | LDA_MEM | LDB_MEM | STA | STB
  | ADD | SUB | MUL | DIV | AND | OR | XOR | SHL | SHR | CMP
  | JMP | JZ | JNZ | PUSH | POP | CALL | RET | POPP | HALT
  deriving DecidableEq, Repr

/-- The four formats, which differ only in what the operand byte means (R92). -/
inductive Format where
  /-- No operand; the byte is ignored. -/
  | N
  /-- An 8-bit immediate. -/
  | I
  /-- An 8-bit absolute data address. -/
  | M
  /-- An 8-bit absolute instruction address. -/
  | T
  deriving DecidableEq, Repr

/-- The instructions. A format-N instruction has no operand: the byte of its word is no part of the
instruction (R94, R98; log 11). -/
inductive Instr where
  | nop
  | lda (k : Byte)
  | ldb (k : Byte)
  | ldaMem (k : Byte)
  | ldbMem (k : Byte)
  | sta (k : Byte)
  | stb (k : Byte)
  | add
  | sub
  | mul
  | div
  | and
  | or
  | xor
  | shl
  | shr
  | cmp
  | jmp (k : Byte)
  | jz (k : Byte)
  | jnz (k : Byte)
  | push
  | pop
  | call (k : Byte)
  | ret
  | popp
  | halt
  deriving DecidableEq, Repr

/-- The format of each mnemonic (R92, R95). -/
def Mnemonic.format : Mnemonic → Format
  | .LDA | .LDB => .I
  | .LDA_MEM | .LDB_MEM | .STA | .STB => .M
  | .JMP | .JZ | .JNZ | .CALL => .T
  | .NOP | .ADD | .SUB | .MUL | .DIV | .AND | .OR | .XOR | .SHL | .SHR | .CMP
  | .PUSH | .POP | .RET | .POPP | .HALT => .N

/-- The mnemonic of an instruction. -/
def Instr.mnemonic : Instr → Mnemonic
  | .nop => .NOP
  | .lda _ => .LDA
  | .ldb _ => .LDB
  | .ldaMem _ => .LDA_MEM
  | .ldbMem _ => .LDB_MEM
  | .sta _ => .STA
  | .stb _ => .STB
  | .add => .ADD
  | .sub => .SUB
  | .mul => .MUL
  | .div => .DIV
  | .and => .AND
  | .or => .OR
  | .xor => .XOR
  | .shl => .SHL
  | .shr => .SHR
  | .cmp => .CMP
  | .jmp _ => .JMP
  | .jz _ => .JZ
  | .jnz _ => .JNZ
  | .push => .PUSH
  | .pop => .POP
  | .call _ => .CALL
  | .ret => .RET
  | .popp => .POPP
  | .halt => .HALT

/-- The operand of an instruction: a byte, or absent for format N (R98). -/
def Instr.operand : Instr → Option Byte
  | .lda k | .ldb k | .ldaMem k | .ldbMem k | .sta k | .stb k
  | .jmp k | .jz k | .jnz k | .call k => some k
  | .nop | .add | .sub | .mul | .div | .and | .or | .xor | .shl | .shr | .cmp
  | .push | .pop | .ret | .popp | .halt => none

/-- The source's abstract instruction, "(mnemonic, operand-or-absent)": its operand is a host integer
that may exceed 255 (R90, R98 b). A symbolic operand is out of scope (R4 c). -/
structure Pair where
  mnemonic : Mnemonic
  operand : Option Nat
  deriving DecidableEq, Repr

/-- The pair an instruction stands for (R98). -/
def Instr.toPair (i : Instr) : Pair := { mnemonic := i.mnemonic, operand := i.operand.map BitVec.toNat }

end Sys2Proof
end

