-- ==== Sys2Proof/Machine/Dispatch.lean ====
section
/-! DEFINITION. The one dispatch: an arm per constructor of `Instr`, each one call of its meaning. -/

namespace Sys2Proof.Machine

def exec (i : Instr) (s : State) : Host.Outcome State Fault Refusal :=
  match i with
  -- spec/40_load_store.md
  | .nop => Sys2Proof.Machine.execNop s
  | .lda k => Sys2Proof.Machine.execLda k s
  | .ldb k => Sys2Proof.Machine.execLdb k s
  | .ldaMem k => Sys2Proof.Machine.execLdaMem k s
  | .ldbMem k => Sys2Proof.Machine.execLdbMem k s
  | .sta k => Sys2Proof.Machine.execSta k s
  | .stb k => Sys2Proof.Machine.execStb k s
  -- spec/41_alu.md
  | .add => Sys2Proof.Machine.execAdd s
  | .sub => Sys2Proof.Machine.execSub s
  | .mul => Sys2Proof.Machine.execMul s
  | .div => Sys2Proof.Machine.execDiv s
  | .and => Sys2Proof.Machine.execAnd s
  | .or => Sys2Proof.Machine.execOr s
  | .xor => Sys2Proof.Machine.execXor s
  | .shl => Sys2Proof.Machine.execShl s
  | .shr => Sys2Proof.Machine.execShr s
  | .cmp => Sys2Proof.Machine.execCmp s
  -- spec/42_jump_halt.md
  | .jmp k => Sys2Proof.Machine.execJmp k s
  | .jz k => Sys2Proof.Machine.execJz k s
  | .jnz k => Sys2Proof.Machine.execJnz k s
  -- spec/43_stack_call.md
  | .push => Sys2Proof.Machine.execPush s
  | .pop => Sys2Proof.Machine.execPop s
  | .call k => Sys2Proof.Machine.execCall k s
  | .ret => Sys2Proof.Machine.execRet s
  | .popp => Sys2Proof.Machine.execPopp s
  -- spec/42_jump_halt.md
  | .halt => Sys2Proof.Machine.execHalt s

end Sys2Proof.Machine
end

