-- ==== Sys2Proof/WellFormed.lean ====
section
/-! DEFINITION. The checks the spec makes on what is given to the machine: on an abstract pair
(spec/30_encoding.md R92, R98, R104), on an instruction, on a program (spec/70_reset_and_hazards.md
R254) and on a serialised program (R99). -/

namespace Sys2Proof

/-- An operand stands exactly where the format has one (R92, R104: "An instruction of format I, M or T
takes exactly one operand; one of format N takes none"). -/
def Pair.operandPresenceOk (p : Pair) : Bool :=
  match p.mnemonic.format with
  | .N => p.operand.isNone
  | .I | .M | .T => p.operand.isSome

/-- A data address or a target fits the operand byte; an immediate may be any number, since the encoder
masks it (R98 b). -/
def Pair.operandRangeOk (p : Pair) : Bool :=
  match p.mnemonic.format, p.operand with
  | .M, some n => decide (n < 256)
  | .T, some n => decide (n < 256)
  | _, _ => true

/-- A pair that the encoder accepts (R98). -/
def Pair.wf (p : Pair) : Bool := p.operandPresenceOk && p.operandRangeOk

/-- An instruction is well formed when its pair form is. Its operand is a byte by type, so every
instruction is (`Sys2Proof.Laws.instr_wf`). -/
def Instr.wf (i : Instr) : Bool := i.toPair.wf

/-- A program has at most 256 slots (R254, decision D2). -/
def programWf (p : List InstrWord) : Bool := decide (p.length ≤ Config.maxProgLen)

/-- "A stream of odd length is not a program" (R99). -/
def streamWf (bytes : List Byte) : Bool := bytes.length % 2 == 0

end Sys2Proof
end

