-- ==== Sys2Proof/Decode.lean ====
section
/-! DEFINITION. Decoding and encoding (spec/30_encoding.md R91 to R99): the decoder of the 16-bit
word, the encoder, the encoder of the abstract pair, and the serialised form of a program. -/

namespace Sys2Proof

/-- The opcode byte of a word: `op = w[15:8]` (R91). -/
def opField (w : InstrWord) : Byte := w.extractLsb' 8 8

/-- The operand byte of a word: `k = w[7:0]` (R91). -/
def kField (w : InstrWord) : Byte := w.extractLsb' 0 8

/-- The word with a given opcode byte and operand byte: the opcode is the high byte (R91). -/
def wordOf (op k : Byte) : InstrWord := op ++ k

/-- The opcode number of each mnemonic (R95). -/
def Mnemonic.opcode : Mnemonic → Byte
  | .NOP => 0x00
  | .LDA => 0x01
  | .LDB => 0x02
  | .LDA_MEM => 0x03
  | .LDB_MEM => 0x04
  | .STA => 0x05
  | .STB => 0x06
  | .ADD => 0x07
  | .SUB => 0x08
  | .MUL => 0x09
  | .DIV => 0x0A
  | .AND => 0x0B
  | .OR => 0x0C
  | .XOR => 0x0D
  | .SHL => 0x0E
  | .SHR => 0x0F
  | .CMP => 0x10
  | .JMP => 0x11
  | .JZ => 0x12
  | .JNZ => 0x13
  | .PUSH => 0x14
  | .POP => 0x15
  | .CALL => 0x16
  | .RET => 0x17
  | .POPP => 0x18
  | .HALT => 0x19

/-- The rows of the opcode map, in order: the row of opcode `n` is the `n`-th (R95). -/
def opcodeRows : List Mnemonic :=
  [.NOP, .LDA, .LDB, .LDA_MEM, .LDB_MEM, .STA, .STB,
   .ADD, .SUB, .MUL, .DIV, .AND, .OR, .XOR, .SHL, .SHR, .CMP] ++
  [.JMP, .JZ, .JNZ, .PUSH, .POP, .CALL, .RET, .POPP, .HALT]

/-- The instruction of a mnemonic and an operand byte; a format-N mnemonic ignores the byte (R94). -/
def Mnemonic.instr (k : Byte) : Mnemonic → Instr
  | .NOP => .nop
  | .LDA => .lda k
  | .LDB => .ldb k
  | .LDA_MEM => .ldaMem k
  | .LDB_MEM => .ldbMem k
  | .STA => .sta k
  | .STB => .stb k
  | .ADD => .add
  | .SUB => .sub
  | .MUL => .mul
  | .DIV => .div
  | .AND => .and
  | .OR => .or
  | .XOR => .xor
  | .SHL => .shl
  | .SHR => .shr
  | .CMP => .cmp
  | .JMP => .jmp k
  | .JZ => .jz k
  | .JNZ => .jnz k
  | .PUSH => .push
  | .POP => .pop
  | .CALL => .call k
  | .RET => .ret
  | .POPP => .popp
  | .HALT => .halt

/-- Why a word names no instruction. -/
inductive DecodeError where
  /-- The opcode byte is in 0x1A..0xFF (R96): the step raises UnknownInstruction(op) (R215). -/
  | unknownInstruction (op : Byte)
  deriving DecidableEq, Repr

/-- The decoder: "if `op <= 0x19` the instruction is the row of `op`, with operand `w[7:0]`; otherwise
rule R96" (R95). -/
def decode (w : InstrWord) : Except DecodeError Instr :=
  match opcodeRows[(opField w).toNat]? with
  | some m => .ok (m.instr (kField w))
  | none => .error (.unknownInstruction (opField w))

/-- The encoder: the opcode byte of the map and the operand byte, 0x00 for format N, which is the
canonical encoding (R94, R95). -/
def encode (i : Instr) : InstrWord := wordOf i.mnemonic.opcode (i.operand.getD 0x00)

/-- Why the encoder refuses a pair (R98, R104; log 16). -/
inductive EncodeError where
  /-- A format I, M or T mnemonic without an operand. -/
  | missingOperand
  /-- A format-N mnemonic with an operand. -/
  | extraOperand
  /-- "a data address or target above 255 cannot be encoded and an encoder must refuse it" (R98 b). -/
  | operandTooWide (n : Nat)
  deriving DecidableEq, Repr

/-- The encoder of the abstract pair: an immediate is masked to a byte (`literal & 0xFF`), a data
address or target above 255 is refused (R98 b). -/
def encodePair (p : Pair) : Except EncodeError InstrWord :=
  match p.mnemonic.format, p.operand with
  | .N, none => .ok (wordOf p.mnemonic.opcode 0x00)
  | .N, some _ => .error .extraOperand
  | _, none => .error .missingOperand
  | .I, some n => .ok (wordOf p.mnemonic.opcode (BitVec.ofNat 8 n))
  | .M, some n | .T, some n =>
    if n < 256 then .ok (wordOf p.mnemonic.opcode (BitVec.ofNat 8 n)) else .error (.operandTooWide n)

/-- The words of a program given as abstract pairs, slot by slot; the first pair the encoder refuses
refuses the program (R90, R98, R217). -/
def encodeProgram : List Pair → Except EncodeError (List InstrWord)
  | [] => .ok []
  | p :: ps =>
    match encodePair p, encodeProgram ps with
    | .error e, _ => .error e
    | .ok _, .error e => .error e
    | .ok w, .ok ws => .ok (w :: ws)

/-- A program as a flat byte stream: slot `i` is bytes `2i` (the opcode) and `2i+1` (the operand), so
the word's high byte comes first (R65, R99). -/
def serialise : List InstrWord → List Byte
  | [] => []
  | w :: p => opField w :: kField w :: serialise p

/-- The program a flat byte stream holds; none for a stream of odd length (R99). -/
def deserialise : List Byte → Option (List InstrWord)
  | [] => some []
  | [_] => none
  | op :: k :: rest => (deserialise rest).map (wordOf op k :: ·)

/-- The instruction the decoder reads from the `nbits` low bits of `w`, every bit above them 0, `w` being
numbered as spec/opcode_table.json numbers it: an instruction is one 16-bit word, so bits above 15 are
no part of one and such a number is refused. -/
def decodeTableWord (nbits w : Nat) : Option Instr :=
  let bits := w % 2 ^ nbits
  if bits < 2 ^ 16 then (decode (BitVec.ofNat 16 bits)).toOption else none

end Sys2Proof
end

