-- ==== Sys2Proof/Machine/Fetch.lean ====
section
/-! DEFINITION. Instruction fetch and the end of the instruction stream (spec/10_state.md R40, R41;
spec/70_reset_and_hazards.md R258), and the placing of one word where the next step fetches. -/

namespace Sys2Proof.Machine

/-- The fetch: the word of slot `pc`, or none, "exhausted", when `pc >= PROG_LEN` (R40, R258). -/
def fetch (s : State) : Option InstrWord := s.imem[s.pc.toNat]?

/-- A fetch at `pc >= PROG_LEN`: the run ends EXHAUSTED, `pc` keeps its value (R40, R41). -/
def exhaust (s : State) : State := stopWith .exhausted s

/-- The fault of a word that decodes to no instruction (R96, R215). -/
def decodeFault : DecodeError → RuntimeFault
  | .unknownInstruction op => .unknownInstruction op

/-- A program with one word placed in slot `n`, filled up with words of zeros before it where it is
shorter (log 18). -/
def placeWord : List InstrWord → Nat → InstrWord → List InstrWord
  | [], 0, w => [w]
  | [], n + 1, w => 0 :: placeWord [] n w
  | _ :: p, 0, w => w :: p
  | v :: p, n + 1, w => v :: placeWord p n w

/-- The state with a word in the slot of `pc` and the running flag set, so that the next step fetches
it: it stands for the host's `load_program` and `run` (log 6). -/
def placeNext (w : InstrWord) (s : State) : State :=
  { s with imem := placeWord s.imem s.pc.toNat w, running := true }

end Sys2Proof.Machine
end

