-- ==== Sys2Proof/Machine/Step.lean ====
section
/-! DEFINITION. One step of the machine (spec/10_state.md R40). -/

namespace Sys2Proof.Machine

/-- One step: the exhaustion test, the fetch, the decode, then the instruction's own rule, in that order
(R40, R221). When `running` is false "the machine has no step: it stays as it is" (R40; log 4). -/
def step (s : State) : Host.Outcome State Fault Refusal :=
  if s.running then
    match fetch s with
    | none => .next (exhaust s)
    | some w =>
      match decode w with
      | .error e => .next (raise (decodeFault e) s)
      | .ok i => exec i s
  else .next s

/-- The state with the instruction of the `nbits` low bits of `w` placed where the next step fetches
(`placeNext`); the bits above `nbits` are zero. -/
def State.withFetchWord (s : State) (nbits w : Nat) : State :=
  placeNext (BitVec.ofNat 16 (w % 2 ^ nbits)) s

end Sys2Proof.Machine
end

