-- ==== Sys2Proof/Machine/Assembly.lean ====
section
/-! DEFINITION. The assembly notation of the spec (spec/30_encoding.md R104, R105), as a function from
lines of characters to the words of a program. It is notation, not a part of the machine: the assembler
program itself is out of scope (spec/00_scope.md R4 b). Lexical details are log 15's. -/

namespace Sys2Proof.Machine

/-- An operand as it is written (R104). -/
inductive AsmOperand where
  | numeral (n : Nat)
  | label (name : List Char)
  deriving DecidableEq, Repr

/-- `line ::= [ LABEL ":" ] MNEMONIC [ OPERAND ]` (R104). -/
structure AsmLine where
  label : Option (List Char)
  mnemonic : Mnemonic
  operand : Option AsmOperand
  deriving DecidableEq, Repr

/-- Why a text is no program. Each names the slot of its line. -/
inductive AsmError where
  /-- The line does not have the form of R104. -/
  | badLine (slot : Nat)
  /-- Two lines define one label (log 15). -/
  | duplicateLabel (slot : Nat)
  /-- A label used as an operand that no line defines. -/
  | undefinedLabel (slot : Nat)
  /-- A label "is legal only for format T" (R104). -/
  | labelNotAllowed (slot : Nat)
  /-- The pair of the line is refused by the encoder (R98). -/
  | notEncodable (slot : Nat) (e : EncodeError)
  deriving DecidableEq, Repr

/-- The spelling of each mnemonic, upper case (R104). -/
def mnemonicName : Mnemonic → List Char
  | .NOP => ['N', 'O', 'P']
  | .LDA => ['L', 'D', 'A']
  | .LDB => ['L', 'D', 'B']
  | .LDA_MEM => ['L', 'D', 'A', '_', 'M', 'E', 'M']
  | .LDB_MEM => ['L', 'D', 'B', '_', 'M', 'E', 'M']
  | .STA => ['S', 'T', 'A']
  | .STB => ['S', 'T', 'B']
  | .ADD => ['A', 'D', 'D']
  | .SUB => ['S', 'U', 'B']
  | .MUL => ['M', 'U', 'L']
  | .DIV => ['D', 'I', 'V']
  | .AND => ['A', 'N', 'D']
  | .OR => ['O', 'R']
  | .XOR => ['X', 'O', 'R']
  | .SHL => ['S', 'H', 'L']
  | .SHR => ['S', 'H', 'R']
  | .CMP => ['C', 'M', 'P']
  | .JMP => ['J', 'M', 'P']
  | .JZ => ['J', 'Z']
  | .JNZ => ['J', 'N', 'Z']
  | .PUSH => ['P', 'U', 'S', 'H']
  | .POP => ['P', 'O', 'P']
  | .CALL => ['C', 'A', 'L', 'L']
  | .RET => ['R', 'E', 'T']
  | .POPP => ['P', 'O', 'P', 'P']
  | .HALT => ['H', 'A', 'L', 'T']

/-- "Text after `;` on a line is a comment" (R104). -/
def cutComment : List Char → List Char
  | [] => []
  | c :: cs => if c = ';' then [] else c :: cutComment cs

/-- A token in progress, as the list of the tokens it ends. -/
def endToken (cur : List Char) : List (List Char) := if cur.isEmpty then [] else [cur]

/-- The tokens of a line: separated by blanks, a colon being a token of its own. -/
def tokensFrom (cur : List Char) : List Char → List (List Char)
  | [] => endToken cur
  | c :: cs =>
    if c = ' ' ∨ c = '\t' then endToken cur ++ tokensFrom [] cs
    else if c = ':' then endToken cur ++ [[':']] ++ tokensFrom [] cs
    else tokensFrom (cur ++ [c]) cs

/-- The value of a digit, decimal or hexadecimal. -/
def digitValue (c : Char) : Option Nat :=
  let n := c.toNat
  if 48 ≤ n ∧ n ≤ 57 then some (n - 48)
  else if 65 ≤ n ∧ n ≤ 70 then some (n - 55)
  else if 97 ≤ n ∧ n ≤ 102 then some (n - 87)
  else none

/-- The value of a row of digits in a base, on top of the value of the digits before it. -/
def numeralFrom (base acc : Nat) : List Char → Option Nat
  | [] => some acc
  | c :: cs =>
    match digitValue c with
    | some d => if d < base then numeralFrom base (acc * base + d) cs else none
    | none => none

/-- Whether a token begins with a decimal digit, so that it is a numeral and no label (log 15). -/
def startsWithDigit : List Char → Bool
  | [] => false
  | c :: _ => decide (48 ≤ c.toNat ∧ c.toNat ≤ 57)

/-- `OPERAND ::= decimal numeral | "0x" hexadecimal numeral | LABEL` (R104). -/
def parseOperand (tok : List Char) : Option AsmOperand :=
  match tok with
  | '0' :: 'x' :: d :: ds => (numeralFrom 16 0 (d :: ds)).map .numeral
  | _ => if startsWithDigit tok then (numeralFrom 10 0 tok).map .numeral else some (.label tok)

/-- The mnemonic of a token. -/
def parseMnemonic (tok : List Char) : Option Mnemonic := opcodeRows.find? fun m => mnemonicName m == tok

/-- The line after its label: a mnemonic and at most one operand. -/
def parseBody (label : Option (List Char)) : List (List Char) → Option AsmLine
  | [m] => (parseMnemonic m).map fun m => { label := label, mnemonic := m, operand := none }
  | [m, o] =>
    match parseMnemonic m, parseOperand o with
    | some m, some o => if o = .label [':'] then none else some { label := label, mnemonic := m, operand := some o }
    | _, _ => none
  | _ => none

/-- One line of text (R104). -/
def parseLine (text : List Char) : Option AsmLine :=
  match tokensFrom [] (cutComment text) with
  | l :: [':'] :: body => if startsWithDigit l ∨ l = [':'] then none else parseBody (some l) body
  | body => parseBody none body

/-- All lines of a text, the first being slot 0. -/
def parseLines (slot : Nat) : List (List Char) → Except AsmError (List AsmLine)
  | [] => .ok []
  | t :: ts =>
    match parseLine t, parseLines (slot + 1) ts with
    | none, _ => .error (.badLine slot)
    | some _, .error e => .error e
    | some l, .ok ls => .ok (l :: ls)

/-- The slots of the lines that define a label. -/
def definingSlots (name : List Char) (slot : Nat) : List AsmLine → List Nat
  | [] => []
  | l :: ls => (if l.label = some name then [slot] else []) ++ definingSlots name (slot + 1) ls

/-- The numeric operand of a line: a label stands for the slot of the line that defines it, in format T
only (R104). -/
def resolveOperand (ls : List AsmLine) (slot : Nat) (l : AsmLine) : Except AsmError (Option Nat) :=
  match l.operand with
  | none => .ok none
  | some (.numeral n) => .ok (some n)
  | some (.label name) =>
    if l.mnemonic.format = .T then
      match definingSlots name 0 ls with
      | [] => .error (.undefinedLabel slot)
      | [n] => .ok (some n)
      | _ => .error (.duplicateLabel slot)
    else .error (.labelNotAllowed slot)

/-- The words of the lines from a slot on, `ls` being the whole program. -/
def assembleFrom (ls : List AsmLine) (slot : Nat) : List AsmLine → Except AsmError (List InstrWord)
  | [] => .ok []
  | l :: rest =>
    match resolveOperand ls slot l with
    | .error e => .error e
    | .ok operand =>
      match encodePair { mnemonic := l.mnemonic, operand := operand }, assembleFrom ls (slot + 1) rest with
      | .error e, _ => .error (.notEncodable slot e)
      | .ok _, .error e => .error e
      | .ok w, .ok ws => .ok (w :: ws)

/-- The program that lines of text stand for: "One line is one slot; the first line is slot 0" (R104). -/
def assemble (text : List (List Char)) : Except AsmError (List InstrWord) :=
  match parseLines 0 text with
  | .error e => .error e
  | .ok ls => assembleFrom ls 0 ls

end Sys2Proof.Machine
end

