-- ==== Sys2Proof/Machine/HostInterface.lean ====
section
/-! DEFINITION. The operations of the host, "the sole external caller" of the machine
(spec/70_reset_and_hazards.md R250 to R259; spec/20_memory.md R76). They happen between runs: while the
machine is running the host has no move (R259). -/

namespace Sys2Proof.Machine

/-- `load_program(p)`, the reset of the machine: every piece of state at the value of R42 and the program
from `p`; refused while running, and for a program of more than 256 words (R250, R254). `STACK_DEPTH`
is a parameter of the hardware and stays (log 1). -/
def loadProgram (p : List InstrWord) (s : State) : Host.Outcome State Fault Refusal :=
  if s.running then .refused .loadWhileRunning
  else if programWf p then .next { State.reset with imem := p, stackDepth := s.stackDepth }
  else .refused (.programTooLong p.length)

/-- preset `mem[a] <- v`: idle only, straight to the array, bounds-checked, no device effect (R254,
R76; log 7, log 8). -/
def presetByte (addr : Nat) (v : Byte) (s : State) : Host.Outcome State Fault Refusal :=
  if s.runState = .idle then
    if Config.memSize ≤ addr then .fault (.outOfBounds addr)
    else .next { s with mem := s.mem.poke addr v }
  else .refused .presetNotIdle

/-- `run()`: in the idle state it sets `running`; the steps that follow are `step`'s (R255). -/
def run (s : State) : Host.Outcome State Fault Refusal :=
  if s.runState = .idle then .next { s with running := true } else .refused .runNotIdle

/-- `get_all_outputs()`: at any time, changing nothing (R254). -/
def getAllOutputs (s : State) : List Byte := s.outLog

/-- What the host may read when the run has ended (R257). The stack is written oldest entry first. -/
structure EndState where
  a : Byte
  b : Byte
  pc : Slot
  z : Bool
  c : Bool
  sp : Nat
  stk : List StackCell
  mem : Memory
  stopCause : BitVec 3
  faultCode : BitVec 3
  faultInfo : BitVec 9
  outLog : List Byte
  diagLog : List Diagnostic
  deriving DecidableEq, Repr

/-- The reading of the end state: halted only (R254, R257). -/
def readEndState (s : State) : Host.Outcome EndState Fault Refusal :=
  if s.runState = .halted then
    .next { a := s.a, b := s.b, pc := s.pc, z := s.z, c := s.c, sp := s.sp, stk := s.stk.reverse,
            mem := s.mem, stopCause := s.stopCause.code, faultCode := s.faultCode.code,
            faultInfo := s.faultInfo, outLog := s.outLog, diagLog := s.diagLog }
  else .refused .readNotHalted

/-- "After the run ends the host may read any cell" of data memory, bounds-checked (R76; log 20). -/
def readByte (addr : Nat) (s : State) : Host.Outcome Byte Fault Refusal :=
  if s.runState = .halted then
    if Config.memSize ≤ addr then .fault (.outOfBounds addr) else .next (s.mem.peek addr)
  else .refused .readNotHalted

end Sys2Proof.Machine
end

