-- ==== Sys2Proof/Safety.lean ====
section
/-! DEFINITION. The terms the claims use: the invariant of the states a run can reach, the end of a run
(spec/10_state.md R41), which instruction raises which fault (spec/60_exceptions.md R211) and which byte of
memory a step writes (spec/20_memory.md R63, R73). -/

namespace Sys2Proof.Machine

/-- What holds of every state from reset on, whatever the host loads and presets. -/
structure State.Inv (s : State) : Prop where
  /-- Memory is canonical and lists only addresses below `MEM_SIZE` (R60). -/
  mem_wf : s.mem.wf = true
  /-- `PROG_LEN <= 256` (R5). -/
  prog_len : s.imem.length ≤ Config.maxProgLen
  /-- `pc` holds a value in 0..256 and never wraps (R23, R25). -/
  pc_range : s.pc.toNat ≤ 256
  /-- A stack cell holds 0..256 (R25, R35). -/
  cell_range : ∀ v ∈ s.stk, v.toNat ≤ 256
  /-- `0 <= sp <= STACK_DEPTH` (R32). -/
  sp_range : ∀ d, s.stackDepth = some d → s.sp ≤ d
  /-- `STACK_DEPTH >= 1` where it is finite (R5). -/
  depth_pos : s.stackDepth ≠ some 0
  /-- A running machine has no stop cause (R31). -/
  running_cause : s.running = true → s.stopCause = .none
  /-- `fault_code` is "non-zero iff `stop_cause = FAULT`" (R33). -/
  code_iff : s.faultCode ≠ .none ↔ s.stopCause = .fault
  /-- No instruction raises OutOfBounds (R64). -/
  code_in_bounds : s.faultCode ≠ .outOfBounds
  /-- `fault_info` is the opcode byte for UnknownInstruction (R33, R96). -/
  info_opcode : s.faultCode = .unknownInstruction → 0x1A ≤ s.faultInfo.toNat ∧ s.faultInfo.toNat ≤ 0xFF
  /-- `fault_info` is 0 for every other code a run can leave (R33). -/
  info_zero : s.faultCode ≠ .unknownInstruction → s.faultInfo = 0

/-- The machine has stopped for good: only `load_program` leaves this state (R223). -/
abbrev State.ended (s : State) : Prop := s.running = false ∧ s.stopCause ≠ .none

/-- A normal end of a run, "a normal end?" of R41: any stop cause but FAULT. -/
abbrev State.endedNormally (s : State) : Prop := s.ended ∧ s.stopCause ≠ .fault

/-- `n` steps of the machine, as the host's interface counts them. -/
def runSteps (n : Nat) (s : State) : Host.Outcome State Fault Refusal := Host.Core.run Sys2Proof.core n s

/-- `run()` returns in the state `t`: the first state of the run in which `running` is false (R41,
R255). There is no step budget: `n` is only where the run happens to end. -/
def runReturns (s t : State) : Prop :=
  ∃ n, runSteps n s = .next t ∧ t.running = false ∧ ∀ m < n, ∀ u, runSteps m s = .next u → u.running = true

/-- The fault an instruction raises in a state, from the 'raised by' and 'when' columns of R211: POP with
`sp == 0`, POPP with `sp < 2`, PUSH and CALL with `sp == STACK_DEPTH`. "No other instruction can fault";
LDA_MEM, LDB_MEM, STA and STB never do with `MEM_SIZE` 256 (R64). -/
def faultOf (i : Instr) (s : State) : Option RuntimeFault :=
  match i with
  | .pop => if s.sp = 0 then some .stackUnderflow else none
  | .popp => if s.sp < 2 then some .stackUnderflow else none
  | .push | .call _ => if s.stackDepth = some s.sp then some .stackOverflow else none
  | .nop | .lda _ | .ldb _ | .ldaMem _ | .ldbMem _ | .sta _ | .stb _
  | .add | .sub | .mul | .div | .and | .or | .xor | .shl | .shr | .cmp
  | .jmp _ | .jz _ | .jnz _ | .ret | .halt => none

/-- What a store of `v` to `k` writes in byte `x`: `v` at `k` itself, but for the output address, where the
device leaves 0 in the buffer and counts on in the counter (R63). -/
def byteStored (k v : Byte) (s : State) (x : Byte) : Option Byte :=
  if k = 0xF1 then
    if x = 0xF1 then some 0 else if x = 0xF2 then some (s.mem.peek 0xF2 + 1) else none
  else if x = k then some v else none

/-- What the next step writes in byte `x` of memory, if it writes that byte: an STA or STB it executes, or the
device in the step of such a store, does; nothing else does (R60, R63, R73 c). -/
def byteWrittenNext (x : Byte) (s : State) : Option Byte :=
  if s.running then
    match (fetch s).map decode with
    | some (.ok (.sta k)) => byteStored k s.a s x
    | some (.ok (.stb k)) => byteStored k s.b s x
    | _ => none
  else none

/-- `v` is what byte `x` holds by R73 (b) after `n` steps of the run from `s`: the value of the latest step that
wrote the byte, or, where none of them did, the value the run began with. -/
def latestValue (x : Byte) (n : Nat) (s : State) (v : Byte) : Prop :=
  (∃ m < n, ∃ u, runSteps m s = .next u ∧ byteWrittenNext x u = some v ∧
    ∀ j, m < j → j < n → ∀ q, runSteps j s = .next q → byteWrittenNext x q = none) ∨
  (s.mem.peek x.toNat = v ∧ ∀ j < n, ∀ q, runSteps j s = .next q → byteWrittenNext x q = none)

end Sys2Proof.Machine
end

