-- ==== Sys2Proof/Certificates/Slice0/Obligations.lean ====
section
/-! DEFINITION. The statements for the provers, from the numbered rules of spec/. A statement written
`∃ t, exec i s = .next t ∧ …` says that the instruction completes and what the next state holds; one
written `exec i s = .next { s with … }` says with it that everything not named is unchanged. -/

open Sys2Proof Sys2Proof.Machine

/-! ### Encoding -/

/-- Every instruction is well formed and decodes back from its canonical word, and a word that decodes to
an instruction agrees with that canonical word in every bit the format uses (R91, R94, R95). -/
def Obligations.DecodeEncodeAgree : Prop :=
  (∀ i : Instr, i.wf = true ∧ decode (encode i) = .ok i) ∧
  ∀ (w : InstrWord) (i : Instr), decode w = .ok i →
    opField (encode i) = opField w ∧ (i.mnemonic.format ≠ .N → encode i = w)

/-- The opcode map of R95, row by row (opcode, mnemonic, format): the format, the canonical word, the match
and mask columns over every word; and the words above 0x19 decode to nothing. -/
def Obligations.OpcodeMapMatchesEveryWord : Prop :=
  (∀ row ∈ ([(0x00, .NOP, .N), (0x01, .LDA, .I), (0x02, .LDB, .I), (0x03, .LDA_MEM, .M),
      (0x04, .LDB_MEM, .M), (0x05, .STA, .M), (0x06, .STB, .M), (0x07, .ADD, .N), (0x08, .SUB, .N),
      (0x09, .MUL, .N), (0x0A, .DIV, .N), (0x0B, .AND, .N), (0x0C, .OR, .N)] ++
      [(0x0D, .XOR, .N), (0x0E, .SHL, .N), (0x0F, .SHR, .N), (0x10, .CMP, .N), (0x11, .JMP, .T),
      (0x12, .JZ, .T), (0x13, .JNZ, .T), (0x14, .PUSH, .N), (0x15, .POP, .N), (0x16, .CALL, .T),
      (0x17, .RET, .N), (0x18, .POPP, .N), (0x19, .HALT, .N)] : List (Nat × Mnemonic × Format)),
    row.2.1.format = row.2.2 ∧
    (∀ k : Byte, (encode (row.2.1.instr k)).toNat = row.1 * 256 + if row.2.2 = .N then 0 else k.toNat) ∧
    ∀ w : InstrWord,
      (w &&& 0xFF00 = BitVec.ofNat 16 (row.1 * 256) → decode w = .ok (row.2.1.instr (kField w))) ∧
      (w &&& 0xFF00 ≠ BitVec.ofNat 16 (row.1 * 256) → ∀ i, decode w = .ok i → i.mnemonic ≠ row.2.1)) ∧
  ∀ w : InstrWord, (∃ i, decode w = .ok i) ↔ w.toNat / 256 ≤ 0x19

/-- A word whose opcode byte is in 0x1A..0xFF names no instruction; executing one raises UnknownInstruction
with the opcode byte and no other effect; and a step looks at no slot but that of `pc`, so that an illegal
word in a slot that is not reached has no effect (R96, R215). -/
def Obligations.IllegalWordsFaultOnlyWhenFetched : Prop :=
  (∀ w : InstrWord, decode w = .error (.unknownInstruction (opField w)) ↔ 0x1A ≤ (opField w).toNat) ∧
  (∀ (s : State) (w : InstrWord), s.running = true → s.imem[s.pc.toNat]? = some w →
    0x1A ≤ (opField w).toNat →
      step s = .next { s with
        running := false, stopCause := .fault, faultCode := .unknownInstruction,
        faultInfo := BitVec.ofNat 9 (opField w).toNat }) ∧
  ∀ (s : State) (q : List InstrWord), q.length = s.imem.length →
    q[s.pc.toNat]? = s.imem[s.pc.toNat]? →
      ∃ t, step s = .next t ∧ step { s with imem := q } = .next { t with imem := q }

/-- The operand byte of a format-N word is ignored: all 256 words decode to the one instruction, and its
canonical word has the byte 0x00 (R94). -/
def Obligations.FormatNOperandByteIgnored : Prop :=
  ∀ m : Mnemonic, m.format = .N → ∃ i : Instr,
    (∀ k : Byte, decode (wordOf m.opcode k) = .ok i) ∧ i.mnemonic = m ∧ kField (encode i) = 0x00

/-- Words written out from the encodings of the spec (95_test_vectors.md S1, P2, P3, P4, X3) decode to the
instructions they stand for. -/
def Obligations.WrittenWordsDecode : Prop :=
  decode 0x012A = .ok (.lda 42) ∧ decode 0x0510 = .ok (.sta 16) ∧ decode 0x0411 = .ok (.ldbMem 17) ∧
  decode 0x0700 = .ok .add ∧ decode 0x0E00 = .ok .shl ∧ decode 0x1000 = .ok .cmp ∧
  decode 0x120D = .ok (.jz 13) ∧ decode 0x1102 = .ok (.jmp 2) ∧ decode 0x1601 = .ok (.call 1) ∧
  decode 0x1400 = .ok .push ∧ decode 0x1800 = .ok .popp ∧ decode 0x1700 = .ok .ret ∧ decode 0x19FF = .ok .halt

/-- The encoder of the abstract pair: it accepts exactly the well-formed pairs, an immediate is reduced to
its low byte, and what it gives decodes to the pair's instruction (R98 b; the refusal of a missing or an
extra operand is read from R104, log 16). -/
def Obligations.PairEncoderMasksOrRefuses : Prop :=
  (∀ p : Pair, (∃ w, encodePair p = .ok w) ↔ p.wf = true) ∧
  (∀ (m : Mnemonic) (n : Nat), m.format = .I →
    encodePair { mnemonic := m, operand := some n } = .ok (wordOf m.opcode (BitVec.ofNat 8 (n % 256)))) ∧
  (∀ (m : Mnemonic) (n : Nat), m.format = .M ∨ m.format = .T → 256 ≤ n →
    encodePair { mnemonic := m, operand := some n } = .error (.operandTooWide n)) ∧
  ∀ (p : Pair) (w : InstrWord), encodePair p = .ok w → ∃ i : Instr,
    decode w = .ok i ∧ i.mnemonic = p.mnemonic ∧ i.operand = p.operand.map (BitVec.ofNat 8)

/-- The serialised form: slot `i` is bytes `2i` (the opcode byte) and `2i+1` (the operand byte), the stream
is read back to the program, and a stream of odd length is not a program (R99). -/
def Obligations.SerialisedFormReadsBack : Prop :=
  (∀ (p : List InstrWord) (i : Nat),
    (serialise p)[2 * i]? = (p[i]?).map opField ∧ (serialise p)[2 * i + 1]? = (p[i]?).map kField) ∧
  (∀ p : List InstrWord, deserialise (serialise p) = some p) ∧
  ∀ bytes : List Byte, deserialise bytes = none ↔ bytes.length % 2 = 1

/-! ### Reset and the host -/

/-- `load_program` is the reset: every piece of state has the value R42 states, the program is the one given,
and the run state is idle (R250, R42). -/
def Obligations.LoadProgramResets : Prop :=
  ∀ (p : List InstrWord) (s : State), s.running = false → p.length ≤ 256 →
    ∃ t, loadProgram p s = .next t ∧
      (∀ x, t.mem.peek x = 0) ∧ t.a = 0 ∧ t.b = 0 ∧ t.pc = 0 ∧ t.z = false ∧ t.c = false ∧
      t.running = false ∧ t.sp = 0 ∧ (∀ j, t.stkAt j = none) ∧ t.stopCause = .none ∧
      t.faultCode = .none ∧ t.faultInfo = 0 ∧ t.outLog = [] ∧ t.diagLog = [] ∧
      t.imem = p ∧ t.progLen = p.length ∧ t.runState = .idle

/-- The invariant holds at reset, for every legal `STACK_DEPTH`. That `State.reset` itself takes the unbounded
one is the model's choice (log 1). -/
def Obligations.ResetMeetsTheInvariant : Prop :=
  State.reset.Inv ∧ ∀ d : Option Nat, d ≠ some 0 → State.Inv { State.reset with stackDepth := d }

/-- When each operation of the host is allowed and what it does (R254, R255, R257, R76). That a refused or
failing one leaves the machine as it was is the model's reading (log 7, log 20). -/
def Obligations.HostOperationsAllowedWhen : Prop :=
  ∀ (s : State) (p : List InstrWord) (x : Nat) (v : Byte),
    ((∃ t, loadProgram p s = .next t) ↔ s.runState ≠ .running ∧ p.length ≤ 256) ∧
    ((∃ t, presetByte x v s = .next t) ↔ s.runState = .idle ∧ x < 256) ∧
    (s.runState = .idle → 256 ≤ x → presetByte x v s = .fault (.outOfBounds x)) ∧
    (∀ t, presetByte x v s = .next t → t = { s with mem := t.mem } ∧
      ∀ y, t.mem.peek y = if y = x then v else s.mem.peek y) ∧
    ((∃ t, run s = .next t) ↔ s.runState = .idle) ∧
    (∀ t, run s = .next t → t = { s with running := true } ∧ t.runState = .running) ∧
    (s.runState = .halted → run s = .refused .runNotIdle) ∧
    getAllOutputs s = s.outLog ∧
    ((∃ e, readEndState s = .next e) ↔ s.runState = .halted) ∧
    (∀ e, readEndState s = .next e → e.a = s.a ∧ e.b = s.b ∧ e.pc = s.pc ∧ e.z = s.z ∧ e.c = s.c ∧
      e.sp = s.sp ∧ (∀ j, e.stk[j]? = s.stkAt j) ∧ e.mem = s.mem ∧ e.stopCause = s.stopCause.code ∧
      e.faultCode = s.faultCode.code ∧ e.faultInfo = s.faultInfo ∧ e.outLog = s.outLog ∧
      e.diagLog = s.diagLog)

/-- Whatever the host does between runs, the invariant is kept. -/
def Obligations.HostOperationsKeepTheInvariant : Prop :=
  ∀ s t : State, s.Inv →
    (∀ p, loadProgram p s = .next t → t.Inv) ∧
    (∀ x v, presetByte x v s = .next t → t.Inv) ∧
    (run s = .next t → t.Inv)

/-! ### The step and the run -/

/-- A step runs the decoded instruction: when the machine is running and the word in the slot of `pc` decodes
to `i`, the step is `exec i`; nothing is added around it (R40). -/
def Obligations.StepRunsDecodedInstruction : Prop :=
  ∀ (s : State) (w : InstrWord) (i : Instr),
    s.running = true → s.imem[s.pc.toNat]? = some w → decode w = .ok i → step s = exec i s

/-- A fetch at `pc >= PROG_LEN` ends the run as EXHAUSTED and changes nothing else; no fault (R40, R41). -/
def Obligations.ExhaustedStreamEndsTheRun : Prop :=
  ∀ s : State, s.running = true → s.progLen ≤ s.pc.toNat →
    step s = .next { s with running := false, stopCause := .exhausted }

/-- A stopped machine stays as it is, however many steps are asked of it (R40, R223). That such a step answers the
state itself is the model's way to write 'has no step' (log 4). -/
def Obligations.StoppedMachineStaysAsItIs : Prop :=
  ∀ (n : Nat) (s : State), s.running = false → runSteps n s = .next s

/-- No instruction and no step of the model ends in an error or a refusal of the host's interface. That a fault of
R211 is a next state with the stop registers written, and that a step of a stopped machine answers the same state,
are the model's choices (log 5, log 4) of how to write what R212 and R40 say. -/
def Obligations.EveryStepAnswersANextState : Prop :=
  (∀ (i : Instr) (s : State), ∃ t, exec i s = .next t) ∧
  ∀ (n : Nat) (s : State), ∃ t, runSteps n s = .next t

/-- Every step keeps the invariant of `State.Inv`: canonical memory, `pc` and the stack cells in 0..256, `sp`
within `STACK_DEPTH`, the stop-cause registers consistent with the run state. -/
def Obligations.EveryStepKeepsTheInvariant : Prop :=
  ∀ s t : State, s.Inv → step s = .next t → t.Inv

/-- A run that returns ends in exactly one of the four ways of R41: HALT, with `pc` one past it; a fetch at or
past the end of the program; RET on an empty stack, with its warning; a fault, with `pc` at the faulting
instruction. -/
def Obligations.RunEndsInOneOfFourWays : Prop :=
  ∀ s t : State, s.running = true → runReturns s t → ∃ u : State,
    (∃ n, runSteps n s = .next u) ∧ u.running = true ∧ step u = .next t ∧
    ((t.stopCause = .halt ∧ (∃ w, fetch u = some w ∧ decode w = .ok .halt) ∧ t.pc = u.pc + 1) ∨
     (t.stopCause = .exhausted ∧ u.progLen ≤ u.pc.toNat ∧ t.pc = u.pc) ∨
     (t.stopCause = .retEmpty ∧ (∃ w, fetch u = some w ∧ decode w = .ok .ret) ∧ u.sp = 0 ∧ t.pc = u.pc ∧
       t.diagLog = u.diagLog ++ [.returnOnEmptyStack]) ∨
     (t.stopCause = .fault ∧ t.faultCode ≠ .none ∧ t.pc = u.pc ∧ ∃ w, fetch u = some w ∧
       (0x1A ≤ (opField w).toNat ∨ ∃ i, decode w = .ok i ∧ faultOf i u ≠ none)))

/-- A jump to its own address is an endless loop that the machine never leaves (R170, R171). -/
def Obligations.JumpToItselfNeverEnds : Prop :=
  ∀ (s : State) (w : InstrWord) (k : Byte) (n : Nat),
    s.running = true → s.imem[s.pc.toNat]? = some w → decode w = .ok (.jmp k) → k.toNat = s.pc.toNat →
      runSteps n s = .next s

/-! ### Tables over all instructions -/

/-- What writes `Z`, the whole table of R27, with R28: a write of `A` recomputes it from the new `A`, CMP sets
it from the comparison, every other instruction, and every faulting one, leaves it. -/
def Obligations.ZeroFlagTable : Prop :=
  ∀ (i : Instr) (s : State), ∃ t, exec i s = .next t ∧
    t.z = if faultOf i s ≠ none then s.z else
      match i with
      | .lda _ | .ldaMem _ | .add | .sub | .mul | .div | .and | .or | .xor | .shl | .shr | .pop | .popp =>
        decide (t.a = 0)
      | .cmp => decide (s.a = s.b)
      | .nop | .ldb _ | .ldbMem _ | .sta _ | .stb _ | .jmp _ | .jz _ | .jnz _ | .push | .call _ | .ret
      | .halt => s.z

/-- What writes `C`, the whole table of R29: SHL the old `A[7]`, SHR the old `A[0]`, CMP `A < B`; every other
instruction, ADD, SUB, MUL and DIV included, leaves it. -/
def Obligations.CarryFlagTable : Prop :=
  ∀ (i : Instr) (s : State), ∃ t, exec i s = .next t ∧
    t.c = match i with
      | .shl => s.a.getLsbD 7
      | .shr => s.a.getLsbD 0
      | .cmp => decide (s.a.toNat < s.b.toNat)
      | .nop | .lda _ | .ldb _ | .ldaMem _ | .ldbMem _ | .sta _ | .stb _ | .add | .sub | .mul | .div
      | .and | .or | .xor | .jmp _ | .jz _ | .jnz _ | .push | .pop | .call _ | .ret | .popp | .halt => s.c

/-- How each instruction advances `pc`, the whole table of R24. -/
def Obligations.ProgramCounterTable : Prop :=
  ∀ (i : Instr) (s : State), ∃ t, exec i s = .next t ∧
    t.pc = if faultOf i s ≠ none then s.pc else
      match i with
      | .jmp k | .call k => BitVec.ofNat 9 k.toNat
      | .jz k => if s.z = true then BitVec.ofNat 9 k.toNat else s.pc + 1
      | .jnz k => if s.z = false then BitVec.ofNat 9 k.toNat else s.pc + 1
      | .ret => (s.stkAt (s.sp - 1)).getD s.pc
      | .nop | .lda _ | .ldb _ | .ldaMem _ | .ldbMem _ | .sta _ | .stb _ | .add | .sub | .mul | .div
      | .and | .or | .xor | .shl | .shr | .cmp | .push | .pop | .popp | .halt => s.pc + 1

/-- Which instructions write and which read each general register (the table of R21): an instruction that
does not write a register leaves it, and one that does not read it has the same effect, apart from that
register itself, whatever it holds. -/
def Obligations.RegisterAccessTable : Prop :=
  ∀ (i : Instr) (s : State) (v : Byte), ∃ t, exec i s = .next t ∧
    (i.mnemonic ∉ [.LDA, .LDA_MEM, .ADD, .SUB, .MUL, .DIV, .AND, .OR, .XOR, .SHL, .SHR, .POP, .POPP] →
      t.a = s.a) ∧
    (i.mnemonic ∉ [.LDB, .LDB_MEM] → t.b = s.b) ∧
    (i.mnemonic ∉ [.STA, .ADD, .SUB, .MUL, .DIV, .AND, .OR, .XOR, .SHL, .SHR, .CMP, .PUSH] →
      ∃ x, (x = v ∨ x = t.a) ∧ exec i { s with a := v } = .next { t with a := x }) ∧
    (i.mnemonic ∉ [.STB, .ADD, .SUB, .MUL, .DIV, .AND, .OR, .XOR, .CMP] →
      ∃ x, (x = v ∨ x = t.b) ∧ exec i { s with b := v } = .next { t with b := x })

/-- `Z` is read by JZ and JNZ and by nothing else; `C` is read by no instruction, so that no run, however
long, depends on it in anything but `C` itself (R30). -/
def Obligations.FlagsReadOnlyByZeroJumps : Prop :=
  (∀ (i : Instr) (s : State) (v : Bool), (∀ k, i ≠ .jz k ∧ i ≠ .jnz k) →
    ∃ t x, exec i s = .next t ∧ exec i { s with z := v } = .next { t with z := x }) ∧
  ∀ (n : Nat) (s : State) (v : Bool), ∃ t x,
    runSteps n s = .next t ∧
    runSteps n { s with c := v } = .next { t with c := x }

/-- No store can change an instruction and no fetch can see a store: a run leaves the program and
`STACK_DEPTH` as they are, and the fetch does not depend on data memory (R75, R38). -/
def Obligations.ProgramIsOutOfReach : Prop :=
  (∀ (n : Nat) (s : State), ∃ t, runSteps n s = .next t ∧ t.imem = s.imem ∧
    t.stackDepth = s.stackDepth) ∧
  ∀ (s : State) (m : Memory), fetch { s with mem := m } = fetch s

/-- The stack is reached by PUSH, POP, POPP, CALL and RET only, and those five touch neither data memory nor
`C` (R60, R190). Their whole frame: a completed one writes the stack and `pc`, and POP and POPP `A` and `Z`; RET on
an empty stack only stops the run with its diagnostic (R196); a faulting one only writes the stop registers (R212). -/
def Obligations.StackAndMemoryAreSeparate : Prop :=
  ∀ (i : Instr) (s : State), ∃ t, exec i s = .next t ∧
    (i.mnemonic ∉ [.PUSH, .POP, .POPP, .CALL, .RET] → t.stk = s.stk) ∧
    (i.mnemonic ∈ [.PUSH, .POP, .POPP, .CALL, .RET] →
      t.mem = s.mem ∧ t.c = s.c ∧ t.b = s.b ∧ t.outLog = s.outLog ∧
      if faultOf i s ≠ none then
        t = { s with running := false, stopCause := .fault, faultCode := t.faultCode, faultInfo := 0 }
      else if i = .ret ∧ s.sp = 0 then
        t = { s with
          running := false, stopCause := .retEmpty, diagLog := s.diagLog ++ [.returnOnEmptyStack] }
      else t = { s with
        a := if i.mnemonic ∈ [.POP, .POPP] then t.a else s.a,
        z := if i.mnemonic ∈ [.POP, .POPP] then t.z else s.z, stk := t.stk, pc := t.pc })

/-- Data memory is written by STA and STB only, at their operand address and, where that is 0xF1, in the
buffer and the counter; every other byte, and for every other instruction all of memory, stays (R61, R63). -/
def Obligations.MemoryWrittenOnlyByStores : Prop :=
  ∀ (i : Instr) (s : State), ∃ t, exec i s = .next t ∧
    (i.mnemonic ∉ [.STA, .STB] → t.mem = s.mem) ∧
    ∀ k : Byte, i = .sta k ∨ i = .stb k →
      (∀ x, x ≠ k.toNat → (k = 0xF1 → x ≠ 0xF2) → t.mem.peek x = s.mem.peek x) ∧
      (k ≠ 0xF1 → t.mem.peek k.toNat = if i = .sta k then s.a else s.b) ∧
      (k = 0xF1 → t.mem.peek 0xF1 = 0 ∧ t.mem.peek 0xF2 = s.mem.peek 0xF2 + 1)

/-- What each instruction appends to the two logs: the byte stored to 0xF1, zero included; DivideByZero for
DIV with `B == 0`; ReturnOnEmptyStack for RET with `sp == 0`; nothing else (R68, R219). -/
def Obligations.LogTable : Prop :=
  ∀ (i : Instr) (s : State), ∃ t, exec i s = .next t ∧
    t.outLog = s.outLog ++ (match i with
      | .sta k => if k = 0xF1 then [s.a] else []
      | .stb k => if k = 0xF1 then [s.b] else []
      | _ => []) ∧
    t.diagLog = s.diagLog ++ (match i with
      | .div => if s.b = 0 then [.divideByZero] else []
      | .ret => if s.sp = 0 then [.returnOnEmptyStack] else []
      | _ => [])

/-- The logs are append-only during a run, and no instruction reads them (R39, R219). -/
def Obligations.LogsAreAppendOnlyAndUnread : Prop :=
  (∀ (n : Nat) (s : State), ∃ t, runSteps n s = .next t ∧
    s.outLog <+: t.outLog ∧ s.diagLog <+: t.diagLog) ∧
  ∀ (i : Instr) (s : State) (out : List Byte) (ds : List Diagnostic), ∃ t out' ds',
    exec i s = .next t ∧
    exec i { s with outLog := out, diagLog := ds } = .next { t with outLog := out', diagLog := ds' }

/-! ### Faults and stops -/

/-- What raising a fault does, for each of the four: `running` is cleared, the cause is FAULT, the code and the
information (an address, the opcode byte, or 0) are recorded, and nothing else changes, `pc` included; a faulting
instruction has no other effect (R212, with the columns of R211). For an address above 511, which no instruction
has, the 9 bits of the information are the model's choice (log 19); that the machine then has no further step is
written as the model writes it, by steps that answer the same state (log 4). -/
def Obligations.FaultingInstructionHasNoEffect : Prop :=
  (∀ (f : RuntimeFault) (s : State), raise f s = { s with
    running := false, stopCause := .fault,
    faultCode := (match f with
      | .outOfBounds _ => .outOfBounds
      | .stackUnderflow => .stackUnderflow
      | .unknownInstruction _ => .unknownInstruction
      | .stackOverflow => .stackOverflow),
    faultInfo := BitVec.ofNat 9 (match f with
      | .outOfBounds address => address
      | .unknownInstruction op => op.toNat
      | .stackUnderflow => 0
      | .stackOverflow => 0) }) ∧
  (∀ (i : Instr) (s : State) (f : RuntimeFault), faultOf i s = some f → exec i s = .next (raise f s)) ∧
  (∀ (s : State) (w : InstrWord), s.running = true → fetch s = some w → 0x1A ≤ (opField w).toNat →
    step s = .next (raise (.unknownInstruction (opField w)) s)) ∧
  ∀ (n : Nat) (f : RuntimeFault) (s : State), runSteps n (raise f s) = .next (raise f s)

/-- No other instruction can fault: where the table of R211 names no fault, the fault registers stay, and the
stop cause stays but for HALT and RET (R211, R64). -/
def Obligations.NoOtherInstructionFaults : Prop :=
  ∀ (i : Instr) (s : State), faultOf i s = none → ∃ t, exec i s = .next t ∧
    t.faultCode = s.faultCode ∧ t.faultInfo = s.faultInfo ∧
    (t.stopCause = s.stopCause ∨ t.stopCause = .halt ∨ t.stopCause = .retEmpty)

/-- What clears `running` and what it records: HALT, RET on an empty stack and a fault; no instruction sets
`running`; the stop cause is written only with it; and the numbers of the causes and codes (R31, R33). -/
def Obligations.RunningFlagTable : Prop :=
  (∀ (i : Instr) (s : State), ∃ t, exec i s = .next t ∧
    (if faultOf i s ≠ none then t.running = false ∧ t.stopCause = .fault
     else if i = .halt then t.running = false ∧ t.stopCause = .halt
     else if i = .ret ∧ s.sp = 0 then t.running = false ∧ t.stopCause = .retEmpty
     else t.running = s.running ∧ t.stopCause = s.stopCause)) ∧
  StopCause.code .none = 0 ∧ StopCause.code .halt = 1 ∧ StopCause.code .exhausted = 2 ∧
  StopCause.code .retEmpty = 3 ∧ StopCause.code .fault = 4 ∧
  FaultCode.code .none = 0 ∧ FaultCode.code .outOfBounds = 1 ∧ FaultCode.code .stackUnderflow = 2 ∧
  FaultCode.code .unknownInstruction = 3 ∧ FaultCode.code .stackOverflow = 4

/-! ### Memory, the device, the stack -/

/-- The two access primitives with their bounds check, for every memory size: outside, OutOfBounds with the
address and no effect; inside, a read gives the byte, and a write changes that byte only, but that a write to
0xF1 outputs the byte, clears the buffer and counts modulo 256 (R62, R63). -/
def Obligations.AccessPrimitivesCheckBounds : Prop :=
  ∀ (size x : Nat) (v : Byte) (s : State),
    (size ≤ x → memRead size x s = .error (.outOfBounds x) ∧ memWrite size x v s = .error (.outOfBounds x)) ∧
    (x < size → memRead size x s = .ok (s.mem.peek x) ∧ ∃ m : Memory,
      memWrite size x v s = .ok { s with
        mem := m, outLog := if x = 0xF1 then s.outLog ++ [v] else s.outLog } ∧
      ∀ y, m.peek y =
        if x = 0xF1 then (if y = 0xF1 then 0 else if y = 0xF2 then s.mem.peek 0xF2 + 1 else s.mem.peek y)
        else (if y = x then v else s.mem.peek y))

/-- A load returns the latest value written to its address, by STA or STB or by the output device, whatever the
machine did in between, and where nothing has written the byte the value the run began with (R73 b; a run that
`load_program` prepared begins with 0). With it the move from one register to the other through memory: STA k or
STB k, k not the output address, then a load of k (R127). -/
def Obligations.LoadReturnsTheLatestStore : Prop :=
  (∀ (k : Byte) (n : Nat) (s : State), ∃ t v, runSteps n s = .next t ∧ latestValue k n s v ∧
    exec (.ldaMem k) t = .next { t with a := v, z := decide (v = 0), pc := t.pc + 1 } ∧
    exec (.ldbMem k) t = .next { t with b := v, pc := t.pc + 1 }) ∧
  (∀ (k v w : Byte) (n : Nat) (s : State), latestValue k n s v → latestValue k n s w → v = w) ∧
  ∀ (k v : Byte) (i : Instr) (s : State), k ≠ 0xF1 → (i = .sta k ∧ v = s.a) ∨ (i = .stb k ∧ v = s.b) →
    ∃ t, exec i s = .next t ∧
      exec (.ldbMem k) t = .next { t with b := v, pc := t.pc + 1 } ∧
      exec (.ldaMem k) t = .next { t with a := v, z := decide (v = 0), pc := t.pc + 1 }

/-- The output buffer reads 0 in every state of a run that starts with it 0, so LDA_MEM 0xF1 loads 0 there
(R68 a). A host may preset the buffer to another byte before the run: log 8. -/
def Obligations.OutputBufferStaysZero : Prop :=
  ∀ s : State, s.mem.peek 0xF1 = 0 →
    (∀ n, ∃ t, runSteps n s = .next t ∧ t.mem.peek 0xF1 = 0) ∧
    exec (.ldaMem 0xF1) s = .next { s with a := 0, z := true, pc := s.pc + 1 }

/-- The counter at 0xF2 counts the outputs modulo 256: it is kept in step with the output log by every step
that runs no store to 0xF2, and a store to 0xF2 sets it, after which it counts on (R69). -/
def Obligations.OutputCounterCountsOutputs : Prop :=
  (∀ s : State, (s.mem.peek 0xF2).toNat = s.outLog.length % 256 →
    (∀ w, fetch s = some w → decode w ≠ .ok (.sta 0xF2) ∧ decode w ≠ .ok (.stb 0xF2)) →
      ∃ t, step s = .next t ∧ (t.mem.peek 0xF2).toNat = t.outLog.length % 256) ∧
  ∀ s : State, ∃ t u, exec (.sta 0xF2) s = .next t ∧ t.mem.peek 0xF2 = s.a ∧ t.outLog = s.outLog ∧
    exec (.stb 0xF1) t = .next u ∧ (u.mem.peek 0xF2).toNat = (s.a.toNat + 1) % 256

/-- `StackPush` and `StackPop` by the indices of the spec, `stk[0]` the oldest entry: push writes `stk[sp]`
unless the stack is full, pop reads `stk[sp-1]` unless it is empty; the entries below stay (R36, R37). -/
def Obligations.StackPrimitivesByIndex : Prop :=
  ∀ (v : StackCell) (s : State),
    (s.stackDepth = some s.sp → stackPush v s = .error .stackOverflow) ∧
    (s.stackDepth ≠ some s.sp → ∃ t, stackPush v s = .ok t ∧ t = { s with stk := t.stk } ∧
      t.sp = s.sp + 1 ∧ t.stkAt s.sp = some v ∧ ∀ j < s.sp, t.stkAt j = s.stkAt j) ∧
    (s.sp = 0 → stackPop s = .error .stackUnderflow) ∧
    (s.sp ≠ 0 → ∃ x t, stackPop s = .ok (x, t) ∧ t = { s with stk := t.stk } ∧
      t.sp = s.sp - 1 ∧ s.stkAt (s.sp - 1) = some x ∧ ∀ j < t.sp, t.stkAt j = s.stkAt j)

/-! ### Instruction by instruction: encoding, result, flags, frame -/

/-- NOP (R120). -/
def Obligations.NopOnlyAdvances : Prop :=
  (∀ j : Byte, decode (wordOf 0x00 j) = .ok .nop) ∧ encode .nop = 0x0000 ∧
  ∀ s : State, exec .nop s = .next { s with pc := s.pc + 1 }

/-- LDA k and LDB k: the immediate into the register; `Z` for LDA only (R121, R122). -/
def Obligations.LoadImmediateResults : Prop :=
  ∀ (k : Byte) (s : State),
    decode (wordOf 0x01 k) = .ok (.lda k) ∧
    exec (.lda k) s = .next { s with a := k, z := decide (k = 0), pc := s.pc + 1 } ∧
    decode (wordOf 0x02 k) = .ok (.ldb k) ∧
    exec (.ldb k) s = .next { s with b := k, pc := s.pc + 1 }

/-- LDA_MEM k and LDB_MEM k: the byte at k into the register; `Z` for LDA_MEM only; never a fault (R123,
R124). -/
def Obligations.LoadFromMemoryResults : Prop :=
  ∀ (k : Byte) (s : State),
    decode (wordOf 0x03 k) = .ok (.ldaMem k) ∧
    exec (.ldaMem k) s = .next { s with
      a := s.mem.peek k.toNat, z := decide (s.mem.peek k.toNat = 0), pc := s.pc + 1 } ∧
    decode (wordOf 0x04 k) = .ok (.ldbMem k) ∧
    exec (.ldbMem k) s = .next { s with b := s.mem.peek k.toNat, pc := s.pc + 1 }

/-- STA k and STB k: the register into byte k and nowhere else; at 0xF1 the byte goes to the output log, the
buffer is cleared and the counter at 0xF2 counts modulo 256 (R125, R126). -/
def Obligations.StoreResults : Prop :=
  ∀ (k : Byte) (s : State),
    decode (wordOf 0x05 k) = .ok (.sta k) ∧ decode (wordOf 0x06 k) = .ok (.stb k) ∧
    ∃ m n : Memory,
      exec (.sta k) s = .next { s with
        mem := m, outLog := if k = 0xF1 then s.outLog ++ [s.a] else s.outLog, pc := s.pc + 1 } ∧
      exec (.stb k) s = .next { s with
        mem := n, outLog := if k = 0xF1 then s.outLog ++ [s.b] else s.outLog, pc := s.pc + 1 } ∧
      (∀ x, m.peek x =
        if k = 0xF1 then (if x = 0xF1 then 0 else if x = 0xF2 then s.mem.peek 0xF2 + 1 else s.mem.peek x)
        else (if x = k.toNat then s.a else s.mem.peek x)) ∧
      ∀ x, n.peek x =
        if k = 0xF1 then (if x = 0xF1 then 0 else if x = 0xF2 then s.mem.peek 0xF2 + 1 else s.mem.peek x)
        else (if x = k.toNat then s.b else s.mem.peek x)

/-- ADD, SUB and MUL: the exact result modulo 256, in natural numbers; `Z` from it; `C` not written (R141,
R142, R143). The residue of a negative difference is the model's PRESUMED reading, which the spec marks as general
knowledge and not its source's (log 13). -/
def Obligations.AddSubMulResults : Prop :=
  (∀ j : Byte, decode (wordOf 0x07 j) = .ok .add ∧ decode (wordOf 0x08 j) = .ok .sub ∧
    decode (wordOf 0x09 j) = .ok .mul) ∧
  encode .add = 0x0700 ∧ encode .sub = 0x0800 ∧ encode .mul = 0x0900 ∧
  ∀ s : State, ∃ x y p : Byte,
    exec .add s = .next { s with a := x, z := decide (x = 0), pc := s.pc + 1 } ∧
    x.toNat = (s.a.toNat + s.b.toNat) % 256 ∧
    exec .sub s = .next { s with a := y, z := decide (y = 0), pc := s.pc + 1 } ∧
    y.toNat = (s.a.toNat + 256 - s.b.toNat) % 256 ∧
    exec .mul s = .next { s with a := p, z := decide (p = 0), pc := s.pc + 1 } ∧
    p.toNat = (s.a.toNat * s.b.toNat) % 256

/-- DIV: the floor of the quotient; with `B == 0` the result 0, `Z` true and one DivideByZero diagnostic, and
execution continues (R144). -/
def Obligations.DivideResults : Prop :=
  (∀ j : Byte, decode (wordOf 0x0A j) = .ok .div) ∧ encode .div = 0x0A00 ∧
  ∀ s : State,
    (s.b = 0 → exec .div s = .next { s with
      a := 0, z := true, diagLog := s.diagLog ++ [.divideByZero], pc := s.pc + 1 }) ∧
    (s.b ≠ 0 → ∃ q : Byte,
      exec .div s = .next { s with a := q, z := decide (q = 0), pc := s.pc + 1 } ∧
      q.toNat * s.b.toNat ≤ s.a.toNat ∧ s.a.toNat < (q.toNat + 1) * s.b.toNat)

/-- AND, OR and XOR, bit by bit; `Z` from the result; `C` not written (R145, R146, R147). -/
def Obligations.LogicResults : Prop :=
  (∀ j : Byte, decode (wordOf 0x0B j) = .ok .and ∧ decode (wordOf 0x0C j) = .ok .or ∧
    decode (wordOf 0x0D j) = .ok .xor) ∧
  encode .and = 0x0B00 ∧ encode .or = 0x0C00 ∧ encode .xor = 0x0D00 ∧
  ∀ s : State, ∃ x y p : Byte,
    exec .and s = .next { s with a := x, z := decide (x = 0), pc := s.pc + 1 } ∧
    exec .or s = .next { s with a := y, z := decide (y = 0), pc := s.pc + 1 } ∧
    exec .xor s = .next { s with a := p, z := decide (p = 0), pc := s.pc + 1 } ∧
    ∀ j < 8, x.getLsbD j = (s.a.getLsbD j && s.b.getLsbD j) ∧
      y.getLsbD j = (s.a.getLsbD j || s.b.getLsbD j) ∧
      p.getLsbD j = (s.a.getLsbD j != s.b.getLsbD j)

/-- SHL and SHR: by one, logical, the bit shifted out to `C`; `Z` from the result (R148, R149). -/
def Obligations.ShiftResults : Prop :=
  (∀ j : Byte, decode (wordOf 0x0E j) = .ok .shl ∧ decode (wordOf 0x0F j) = .ok .shr) ∧
  encode .shl = 0x0E00 ∧ encode .shr = 0x0F00 ∧
  ∀ s : State, ∃ l r : Byte,
    exec .shl s = .next { s with
      a := l, z := decide (l = 0), c := decide (128 ≤ s.a.toNat), pc := s.pc + 1 } ∧
    l.toNat = 2 * s.a.toNat % 256 ∧
    exec .shr s = .next { s with
      a := r, z := decide (r = 0), c := decide (s.a.toNat % 2 = 1), pc := s.pc + 1 } ∧
    r.toNat = s.a.toNat / 2

/-- CMP: `Z` iff equal, `C` iff less, unsigned; no register changes (R150). -/
def Obligations.CompareResult : Prop :=
  (∀ j : Byte, decode (wordOf 0x10 j) = .ok .cmp) ∧ encode .cmp = 0x1000 ∧
  ∀ s : State, exec .cmp s = .next { s with
    z := decide (s.a.toNat = s.b.toNat), c := decide (s.a.toNat < s.b.toNat), pc := s.pc + 1 }

/-- JMP k, JZ k and JNZ k: the target is `zext_9(k)`, taken always, when `Z` is true, when it is false; else
the next slot; nothing else changes (R171, R172, R173). -/
def Obligations.JumpResults : Prop :=
  ∀ (k : Byte) (s : State),
    decode (wordOf 0x11 k) = .ok (.jmp k) ∧ decode (wordOf 0x12 k) = .ok (.jz k) ∧
    decode (wordOf 0x13 k) = .ok (.jnz k) ∧
    exec (.jmp k) s = .next { s with pc := BitVec.ofNat 9 k.toNat } ∧
    exec (.jz k) s = .next { s with pc := if s.z = true then BitVec.ofNat 9 k.toNat else s.pc + 1 } ∧
    exec (.jnz k) s = .next { s with pc := if s.z = false then BitVec.ofNat 9 k.toNat else s.pc + 1 }

/-- HALT: `running` false, cause HALT, `pc` one past it, everything else as HALT found it; and then the machine
has no further step (R174), which the model writes as a step that answers the same state (log 4). -/
def Obligations.HaltStopsTheMachine : Prop :=
  (∀ j : Byte, decode (wordOf 0x19 j) = .ok .halt) ∧ encode .halt = 0x1900 ∧
  ∀ s : State, ∃ t, exec .halt s = .next t ∧
    t = { s with running := false, stopCause := .halt, pc := s.pc + 1 } ∧ step t = .next t

/-- PUSH: `A` on top, `sp` one more, nothing else; on a full finite stack StackOverflow and no effect
(R191). -/
def Obligations.PushResults : Prop :=
  (∀ j : Byte, decode (wordOf 0x14 j) = .ok .push) ∧ encode .push = 0x1400 ∧
  ∀ s : State,
    (s.stackDepth ≠ some s.sp → exec .push s = .next { s with
      stk := BitVec.ofNat 9 s.a.toNat :: s.stk, pc := s.pc + 1 }) ∧
    (s.stackDepth = some s.sp → exec .push s = .next { s with
      running := false, stopCause := .fault, faultCode := .stackOverflow, faultInfo := 0 })

/-- POP: the top, masked to 8 bits, into `A`, with `Z`; on an empty stack StackUnderflow and no effect
(R192). -/
def Obligations.PopResults : Prop :=
  (∀ j : Byte, decode (wordOf 0x15 j) = .ok .pop) ∧ encode .pop = 0x1500 ∧
  ∀ s : State,
    (∀ (v : StackCell) (l : List StackCell), s.stk = v :: l → ∃ x : Byte, x.toNat = v.toNat % 256 ∧
      exec .pop s = .next { s with a := x, z := decide (x = 0), stk := l, pc := s.pc + 1 }) ∧
    (s.sp = 0 → exec .pop s = .next { s with
      running := false, stopCause := .fault, faultCode := .stackUnderflow, faultInfo := 0 })

/-- CALL k: the address of the next instruction pushed with 9 bits, `pc` at the target; on a full finite stack
StackOverflow, `pc` unchanged and nothing pushed (R195). -/
def Obligations.CallResults : Prop :=
  ∀ (k : Byte) (s : State),
    decode (wordOf 0x16 k) = .ok (.call k) ∧
    (s.stackDepth ≠ some s.sp → exec (.call k) s = .next { s with
      stk := (s.pc + 1) :: s.stk, pc := BitVec.ofNat 9 k.toNat }) ∧
    (s.stackDepth = some s.sp → exec (.call k) s = .next { s with
      running := false, stopCause := .fault, faultCode := .stackOverflow, faultInfo := 0 })

/-- RET: all 9 bits of the top into `pc`; on an empty stack no fault but a stop with cause RET_EMPTY and one
diagnostic, `pc` at the RET (R196). -/
def Obligations.ReturnResults : Prop :=
  (∀ j : Byte, decode (wordOf 0x17 j) = .ok .ret) ∧ encode .ret = 0x1700 ∧
  ∀ s : State,
    (∀ (v : StackCell) (l : List StackCell), s.stk = v :: l →
      exec .ret s = .next { s with stk := l, pc := v }) ∧
    (s.sp = 0 → exec .ret s = .next { s with
      running := false, stopCause := .retEmpty, diagLog := s.diagLog ++ [.returnOnEmptyStack] })

/-- POPP: the entry under the top, masked to 8 bits, into `A`, with `Z`; the top keeps its value one cell
lower; with fewer than two entries StackUnderflow and no effect (R197). -/
def Obligations.ParameterPopResults : Prop :=
  (∀ j : Byte, decode (wordOf 0x18 j) = .ok .popp) ∧ encode .popp = 0x1800 ∧
  ∀ s : State,
    (∀ (r v : StackCell) (l : List StackCell), s.stk = r :: v :: l → ∃ x : Byte, x.toNat = v.toNat % 256 ∧
      exec .popp s = .next { s with a := x, z := decide (x = 0), stk := r :: l, pc := s.pc + 1 }) ∧
    (s.sp < 2 → exec .popp s = .next { s with
      running := false, stopCause := .fault, faultCode := .stackUnderflow, faultInfo := 0 })

/-! ### Instructions together -/

/-- A subroutine that returns at once: CALL k then RET leaves the state as it was but for `pc`, which is at the
instruction after the CALL (R195, R196). -/
def Obligations.CallThenReturnComesBack : Prop :=
  ∀ (k : Byte) (s : State), s.stackDepth ≠ some s.sp → ∃ t, exec (.call k) s = .next t ∧
    exec .ret t = .next { s with pc := s.pc + 1 }

/-- PUSH then POP gives `A` back, with `Z` recomputed from it; nothing but `pc` is otherwise changed (R191,
R192). -/
def Obligations.PushThenPopGivesBack : Prop :=
  ∀ s : State, s.stackDepth ≠ some s.sp → ∃ t, exec .push s = .next t ∧
    exec .pop t = .next { s with z := decide (s.a = 0), pc := s.pc + 1 + 1 }

/-- The parameter-pop under a return address: after PUSH and CALL k, whatever `A` holds by then, POPP yields the
pushed value and leaves the return address on top, where RET finds it (R195, R197, R199). -/
def Obligations.ParameterIsUnderTheReturnAddress : Prop :=
  ∀ (k v : Byte) (s : State), (∀ d, s.stackDepth = some d → s.sp + 2 ≤ d) → ∃ t u p,
    exec .push s = .next t ∧ exec (.call k) { t with a := v } = .next u ∧ exec .popp u = .next p ∧
    p.a = s.a ∧ p.stk = (s.pc + 1 + 1) :: s.stk ∧
    exec .ret p = .next { p with stk := s.stk, pc := s.pc + 1 + 1 }
end

