-- ==== Sys2Proof/Laws/Decode.lean ====
section
/-! SUPPORT. The small lemmas of the word's fields, of the opcode map and of the well-formedness checks. -/

namespace Sys2Proof.Laws

theorem wordOf_toNat (op k : Byte) : (wordOf op k).toNat = op.toNat * 256 + k.toNat := by
  have := BitVec.toNat_append op k
  rw [Nat.shiftLeft_eq, Nat.mul_comm, ← Nat.two_pow_add_eq_or_of_lt k.isLt, Nat.mul_comm] at this
  exact this

theorem opField_toNat (w : InstrWord) : (opField w).toNat = w.toNat / 256 := by
  have := w.isLt
  simp [opField, BitVec.extractLsb'_toNat, Nat.shiftRight_eq_div_pow]
  omega

theorem kField_toNat (w : InstrWord) : (kField w).toNat = w.toNat % 256 := by
  simp [kField, BitVec.extractLsb'_toNat]

@[simp] theorem opField_wordOf (op k : Byte) : opField (wordOf op k) = op := by
  apply BitVec.eq_of_toNat_eq
  rw [opField_toNat, wordOf_toNat]
  omega

@[simp] theorem kField_wordOf (op k : Byte) : kField (wordOf op k) = k := by
  apply BitVec.eq_of_toNat_eq
  rw [kField_toNat, wordOf_toNat]
  omega

/-- A word is its two fields. -/
theorem wordOf_fields (w : InstrWord) : wordOf (opField w) (kField w) = w := by
  apply BitVec.eq_of_toNat_eq
  rw [wordOf_toNat, opField_toNat, kField_toNat]
  omega

/-- The row of an opcode number is its mnemonic (R95). -/
theorem opcodeRows_opcode (m : Mnemonic) : opcodeRows[m.opcode.toNat]? = some m := by
  cases m <;> rfl

theorem instr_mnemonic (k : Byte) (m : Mnemonic) : (m.instr k).mnemonic = m := by
  cases m <;> rfl

/-- A word whose opcode byte is a mnemonic's decodes to that mnemonic's instruction. -/
theorem decode_wordOf_opcode (m : Mnemonic) (k : Byte) : decode (wordOf m.opcode k) = .ok (m.instr k) := by
  simp [decode, opcodeRows_opcode]

/-- Everything the decoder can do: the row of the opcode byte with the operand byte, or the refusal of an
opcode byte above 0x19. -/
theorem decode_cases (w : InstrWord) :
    (∃ m : Mnemonic, opField w = m.opcode ∧ decode w = .ok (m.instr (kField w))) ∨
      (0x1A ≤ (opField w).toNat ∧ decode w = .error (.unknownInstruction (opField w))) := by
  unfold decode
  rcases hrow : opcodeRows[(opField w).toNat]? with - | m
  · exact .inr ⟨List.getElem?_eq_none_iff.1 hrow, rfl⟩
  · refine .inl ⟨m, ?_, rfl⟩
    have hall : ∀ n < 26, ∀ m : Mnemonic, opcodeRows[n]? = some m → n = m.opcode.toNat := by decide
    have hlt : (opField w).toNat < 26 := (List.getElem?_eq_some_iff.1 hrow).1
    exact BitVec.eq_of_toNat_eq (hall _ hlt m hrow)

/-- Every instruction is well formed: its operand is a byte by type. -/
theorem instr_wf (i : Instr) : i.wf = true := by
  cases i <;>
    simp [Instr.wf, Pair.wf, Pair.operandPresenceOk, Pair.operandRangeOk, Instr.toPair, Instr.mnemonic,
      Instr.operand, Mnemonic.format] <;> omega

end Sys2Proof.Laws
end

