-- ==== Sys2Proof/Laws/Memory.lean ====
section
/-! SUPPORT. The laws of data memory: a read after a write, and the canonical form that every write keeps
and that makes equal memories equal data. -/

namespace Sys2Proof.Machine

@[simp] theorem Memory.peek_nil (x : Nat) : Memory.peek [] x = 0 := rfl

theorem Memory.peek_cons (cell : Host.Cell) (m : Memory) (x : Nat) :
    Memory.peek (cell :: m) x = if cell.1 = x then cell.2 else m.peek x := rfl

theorem Memory.peek_of_forall_ne (m : Memory) (x : Nat) (h : ∀ cell ∈ m, cell.1 ≠ x) : m.peek x = 0 := by
  induction m with
  | nil => rfl
  | cons cell m ih =>
    rw [peek_cons, if_neg (h cell (by simp))]
    exact ih fun d hd => h d (by simp [hd])

theorem Memory.mem_erase (m : Memory) (addr : Nat) (cell : Host.Cell) :
    cell ∈ m.erase addr ↔ cell ∈ m ∧ cell.1 ≠ addr := by
  simp [Memory.erase, List.mem_filter]

theorem Memory.peek_erase (m : Memory) (addr x : Nat) :
    (m.erase addr).peek x = if x = addr then 0 else m.peek x := by
  induction m with
  | nil => simp [Memory.erase]
  | cons cell m ih =>
    by_cases hc : cell.1 = addr
    · have : Memory.erase (cell :: m) addr = Memory.erase m addr := by simp [Memory.erase, hc]
      rw [this, ih, peek_cons]
      by_cases hx : x = addr
      · simp [hx]
      · simp [hx, show cell.1 ≠ x from fun e => hx (e ▸ hc)]
    · have : Memory.erase (cell :: m) addr = cell :: Memory.erase m addr := by simp [Memory.erase, hc]
      rw [this, peek_cons, peek_cons, ih]
      by_cases hx : cell.1 = x
      · simp [hx, show x ≠ addr from fun e => hc (hx.trans e)]
      · simp [hx]

theorem Memory.mem_insert (m : Memory) (addr : Nat) (v : Byte) (cell : Host.Cell) :
    cell ∈ m.insert addr v ↔ cell = (addr, v) ∨ cell ∈ m := by
  induction m with
  | nil => simp [Memory.insert]
  | cons d m ih =>
    simp only [Memory.insert]
    split
    · simp
    · rw [List.mem_cons, ih, List.mem_cons]
      tauto

theorem Memory.peek_insert (m : Memory) (addr : Nat) (v : Byte) (x : Nat) (h : ∀ cell ∈ m, cell.1 ≠ addr) :
    (m.insert addr v).peek x = if x = addr then v else m.peek x := by
  induction m with
  | nil => simp [Memory.insert, peek_cons, eq_comm (a := addr)]
  | cons cell m ih =>
    have hc : cell.1 ≠ addr := h cell (by simp)
    simp only [Memory.insert]
    split
    · simp [peek_cons (addr, v), eq_comm (a := addr)]
    · rw [peek_cons, ih fun d hd => h d (by simp [hd]), peek_cons]
      by_cases hx : x = addr
      · simp [hx, hc]
      · simp [hx]

/-- A byte written is read back, and every other byte is left alone. -/
theorem Memory.peek_poke (m : Memory) (addr : Nat) (v : Byte) (x : Nat) :
    (m.poke addr v).peek x = if x = addr then v else m.peek x := by
  unfold Memory.poke
  split
  · next hv => rw [peek_erase, hv]; rfl
  · rw [peek_insert _ _ _ _ fun cell hcell => ((mem_erase m addr cell).1 hcell).2, peek_erase]
    split <;> rfl

@[simp] theorem Memory.peek_poke_self (m : Memory) (addr : Nat) (v : Byte) : (m.poke addr v).peek addr = v := by
  simp [peek_poke]

theorem Memory.peek_poke_ne (m : Memory) (addr : Nat) (v : Byte) (x : Nat) (h : x ≠ addr) :
    (m.poke addr v).peek x = m.peek x := by
  simp [peek_poke, h]

/-- The canonical form, as a proposition. -/
theorem Memory.wf_iff (m : Memory) :
    m.wf = true ↔ m.Pairwise (fun x y => x.1 < y.1) ∧ ∀ cell ∈ m, cell.1 < Config.memSize ∧ cell.2 ≠ 0 := by
  simp only [Memory.wf, Bool.and_eq_true, List.all_eq_true, decide_eq_true_eq]
  rfl

theorem Memory.wf_nil : Memory.wf [] = true := rfl

theorem Memory.pairwise_insert (m : Memory) (addr : Nat) (v : Byte) (hm : m.Pairwise fun x y => x.1 < y.1)
    (h : ∀ cell ∈ m, cell.1 ≠ addr) : (m.insert addr v).Pairwise fun x y => x.1 < y.1 := by
  induction m with
  | nil => simp [Memory.insert]
  | cons cell m ih =>
    have hc : cell.1 ≠ addr := h cell (by simp)
    obtain ⟨h1, h2⟩ := List.pairwise_cons.1 hm
    simp only [Memory.insert]
    split
    · next hlt =>
      refine List.pairwise_cons.2 ⟨fun d hd => ?_, hm⟩
      rcases List.mem_cons.1 hd with rfl | hd
      · exact hlt
      · exact lt_trans hlt (h1 d hd)
    · next hlt =>
      refine List.pairwise_cons.2 ⟨fun d hd => ?_, ih h2 fun d hd => h d (by simp [hd])⟩
      rcases (mem_insert m addr v d).1 hd with rfl | hd
      · show cell.1 < addr
        omega
      · exact h1 d hd

theorem Memory.wf_erase (m : Memory) (addr : Nat) (hm : m.wf = true) : (m.erase addr).wf = true := by
  rw [wf_iff] at hm ⊢
  exact ⟨hm.1.filter _, fun cell hcell => hm.2 cell ((mem_erase m addr cell).1 hcell).1⟩

/-- Every write inside the memory keeps the canonical form. -/
theorem Memory.wf_poke (m : Memory) (addr : Nat) (v : Byte) (hm : m.wf = true) (ha : addr < Config.memSize) :
    (m.poke addr v).wf = true := by
  have he := wf_erase m addr hm
  unfold Memory.poke
  split
  · exact he
  · next hv =>
    rw [wf_iff] at he ⊢
    refine ⟨pairwise_insert _ _ _ he.1 fun cell hcell => ((mem_erase m addr cell).1 hcell).2, fun cell hcell => ?_⟩
    rcases (mem_insert _ _ _ _).1 hcell with rfl | hcell
    · exact ⟨ha, hv⟩
    · exact he.2 cell hcell

/-- In canonical form, memories that read alike are the same data. -/
theorem Memory.eq_of_peek (m n : Memory) (hm : m.wf = true) (hn : n.wf = true) (h : ∀ x, m.peek x = n.peek x) :
    m = n := by
  induction m generalizing n with
  | nil =>
    cases n with
    | nil => rfl
    | cons d n =>
      have hd := ((wf_iff _).1 hn).2 d (by simp)
      have := h d.1
      simp [peek_cons] at this
      exact absurd this.symm hd.2
  | cons c m ih =>
    cases n with
    | nil =>
      have hc := ((wf_iff _).1 hm).2 c (by simp)
      have := h c.1
      simp [peek_cons] at this
      exact absurd this hc.2
    | cons d n =>
      rw [wf_iff] at hm hn
      obtain ⟨hcm, hm'⟩ := List.pairwise_cons.1 hm.1
      obtain ⟨hdn, hn'⟩ := List.pairwise_cons.1 hn.1
      have below (e : Host.Cell) (l : Memory) (x : Nat) (hl : ∀ y ∈ l, e.1 < y.1) (hx : x < e.1) :
          Memory.peek (e :: l) x = 0 :=
        peek_of_forall_ne _ _ fun y hy => by
          rcases List.mem_cons.1 hy with rfl | hy
          · omega
          · have := hl y hy; omega
      have hkey : c.1 = d.1 := by
        rcases Nat.lt_trichotomy c.1 d.1 with hlt | heq | hlt
        · have := h c.1
          rw [below d n c.1 hdn hlt] at this
          simp [peek_cons] at this
          exact absurd this (hm.2 c (by simp)).2
        · exact heq
        · have := h d.1
          rw [below c m d.1 hcm hlt] at this
          simp [peek_cons] at this
          exact absurd this.symm (hn.2 d (by simp)).2
      have hval : c.2 = d.2 := by
        have := h c.1
        simpa [peek_cons, hkey] using this
      have hrest : m = n := by
        refine ih n ((wf_iff m).2 ⟨hm', fun y hy => hm.2 y (by simp [hy])⟩)
          ((wf_iff n).2 ⟨hn', fun y hy => hn.2 y (by simp [hy])⟩) fun x => ?_
        by_cases hx : c.1 = x
        · rw [peek_of_forall_ne m x fun y hy => by have := hcm y hy; omega,
            peek_of_forall_ne n x fun y hy => by have := hdn y hy; omega]
        · have := h x
          simpa [peek_cons, hx, hkey ▸ hx] using this
      rw [hrest, Prod.ext hkey hval]

end Sys2Proof.Machine
end

