-- ==== Sys2Proof/Laws/State.lean ====
section
/-! SUPPORT. One lemma per field of the state for each update that the meanings are built from, so that no
proof unfolds a record update. -/

namespace Sys2Proof.Machine

/-! ### `raise` -/

@[simp] theorem raise_a (f : RuntimeFault) (s : State) : (raise f s).a = s.a := rfl
@[simp] theorem raise_b (f : RuntimeFault) (s : State) : (raise f s).b = s.b := rfl
@[simp] theorem raise_pc (f : RuntimeFault) (s : State) : (raise f s).pc = s.pc := rfl
@[simp] theorem raise_z (f : RuntimeFault) (s : State) : (raise f s).z = s.z := rfl
@[simp] theorem raise_c (f : RuntimeFault) (s : State) : (raise f s).c = s.c := rfl
@[simp] theorem raise_running (f : RuntimeFault) (s : State) : (raise f s).running = false := rfl
@[simp] theorem raise_stopCause (f : RuntimeFault) (s : State) : (raise f s).stopCause = .fault := rfl
@[simp] theorem raise_faultCode (f : RuntimeFault) (s : State) : (raise f s).faultCode = faultCodeOf f := rfl
@[simp] theorem raise_faultInfo (f : RuntimeFault) (s : State) : (raise f s).faultInfo = faultInfoOf f := rfl
@[simp] theorem raise_stk (f : RuntimeFault) (s : State) : (raise f s).stk = s.stk := rfl
@[simp] theorem raise_mem (f : RuntimeFault) (s : State) : (raise f s).mem = s.mem := rfl
@[simp] theorem raise_imem (f : RuntimeFault) (s : State) : (raise f s).imem = s.imem := rfl
@[simp] theorem raise_outLog (f : RuntimeFault) (s : State) : (raise f s).outLog = s.outLog := rfl
@[simp] theorem raise_diagLog (f : RuntimeFault) (s : State) : (raise f s).diagLog = s.diagLog := rfl
@[simp] theorem raise_stackDepth (f : RuntimeFault) (s : State) : (raise f s).stackDepth = s.stackDepth := rfl
@[simp] theorem raise_sp (f : RuntimeFault) (s : State) : (raise f s).sp = s.sp := rfl

/-! ### `diag` -/

@[simp] theorem diag_a (d : Diagnostic) (s : State) : (diag d s).a = s.a := rfl
@[simp] theorem diag_b (d : Diagnostic) (s : State) : (diag d s).b = s.b := rfl
@[simp] theorem diag_pc (d : Diagnostic) (s : State) : (diag d s).pc = s.pc := rfl
@[simp] theorem diag_z (d : Diagnostic) (s : State) : (diag d s).z = s.z := rfl
@[simp] theorem diag_c (d : Diagnostic) (s : State) : (diag d s).c = s.c := rfl
@[simp] theorem diag_running (d : Diagnostic) (s : State) : (diag d s).running = s.running := rfl
@[simp] theorem diag_stopCause (d : Diagnostic) (s : State) : (diag d s).stopCause = s.stopCause := rfl
@[simp] theorem diag_faultCode (d : Diagnostic) (s : State) : (diag d s).faultCode = s.faultCode := rfl
@[simp] theorem diag_faultInfo (d : Diagnostic) (s : State) : (diag d s).faultInfo = s.faultInfo := rfl
@[simp] theorem diag_stk (d : Diagnostic) (s : State) : (diag d s).stk = s.stk := rfl
@[simp] theorem diag_mem (d : Diagnostic) (s : State) : (diag d s).mem = s.mem := rfl
@[simp] theorem diag_imem (d : Diagnostic) (s : State) : (diag d s).imem = s.imem := rfl
@[simp] theorem diag_outLog (d : Diagnostic) (s : State) : (diag d s).outLog = s.outLog := rfl
@[simp] theorem diag_diagLog (d : Diagnostic) (s : State) : (diag d s).diagLog = s.diagLog ++ [d] := rfl
@[simp] theorem diag_stackDepth (d : Diagnostic) (s : State) : (diag d s).stackDepth = s.stackDepth := rfl
@[simp] theorem diag_sp (d : Diagnostic) (s : State) : (diag d s).sp = s.sp := rfl

/-! ### `stopWith` -/

@[simp] theorem stopWith_a (k : StopCause) (s : State) : (stopWith k s).a = s.a := rfl
@[simp] theorem stopWith_b (k : StopCause) (s : State) : (stopWith k s).b = s.b := rfl
@[simp] theorem stopWith_pc (k : StopCause) (s : State) : (stopWith k s).pc = s.pc := rfl
@[simp] theorem stopWith_z (k : StopCause) (s : State) : (stopWith k s).z = s.z := rfl
@[simp] theorem stopWith_c (k : StopCause) (s : State) : (stopWith k s).c = s.c := rfl
@[simp] theorem stopWith_running (k : StopCause) (s : State) : (stopWith k s).running = false := rfl
@[simp] theorem stopWith_stopCause (k : StopCause) (s : State) : (stopWith k s).stopCause = k := rfl
@[simp] theorem stopWith_faultCode (k : StopCause) (s : State) : (stopWith k s).faultCode = s.faultCode := rfl
@[simp] theorem stopWith_faultInfo (k : StopCause) (s : State) : (stopWith k s).faultInfo = s.faultInfo := rfl
@[simp] theorem stopWith_stk (k : StopCause) (s : State) : (stopWith k s).stk = s.stk := rfl
@[simp] theorem stopWith_mem (k : StopCause) (s : State) : (stopWith k s).mem = s.mem := rfl
@[simp] theorem stopWith_imem (k : StopCause) (s : State) : (stopWith k s).imem = s.imem := rfl
@[simp] theorem stopWith_outLog (k : StopCause) (s : State) : (stopWith k s).outLog = s.outLog := rfl
@[simp] theorem stopWith_diagLog (k : StopCause) (s : State) : (stopWith k s).diagLog = s.diagLog := rfl
@[simp] theorem stopWith_stackDepth (k : StopCause) (s : State) : (stopWith k s).stackDepth = s.stackDepth := rfl
@[simp] theorem stopWith_sp (k : StopCause) (s : State) : (stopWith k s).sp = s.sp := rfl

/-! ### `exhaust` -/

@[simp] theorem exhaust_a (s : State) : (exhaust s).a = s.a := rfl
@[simp] theorem exhaust_b (s : State) : (exhaust s).b = s.b := rfl
@[simp] theorem exhaust_pc (s : State) : (exhaust s).pc = s.pc := rfl
@[simp] theorem exhaust_z (s : State) : (exhaust s).z = s.z := rfl
@[simp] theorem exhaust_c (s : State) : (exhaust s).c = s.c := rfl
@[simp] theorem exhaust_running (s : State) : (exhaust s).running = false := rfl
@[simp] theorem exhaust_stopCause (s : State) : (exhaust s).stopCause = .exhausted := rfl
@[simp] theorem exhaust_faultCode (s : State) : (exhaust s).faultCode = s.faultCode := rfl
@[simp] theorem exhaust_faultInfo (s : State) : (exhaust s).faultInfo = s.faultInfo := rfl
@[simp] theorem exhaust_stk (s : State) : (exhaust s).stk = s.stk := rfl
@[simp] theorem exhaust_mem (s : State) : (exhaust s).mem = s.mem := rfl
@[simp] theorem exhaust_imem (s : State) : (exhaust s).imem = s.imem := rfl
@[simp] theorem exhaust_outLog (s : State) : (exhaust s).outLog = s.outLog := rfl
@[simp] theorem exhaust_diagLog (s : State) : (exhaust s).diagLog = s.diagLog := rfl
@[simp] theorem exhaust_stackDepth (s : State) : (exhaust s).stackDepth = s.stackDepth := rfl
@[simp] theorem exhaust_sp (s : State) : (exhaust s).sp = s.sp := rfl

/-! ### `advance` -/

@[simp] theorem advance_a (s : State) : (advance s).a = s.a := rfl
@[simp] theorem advance_b (s : State) : (advance s).b = s.b := rfl
@[simp] theorem advance_pc (s : State) : (advance s).pc = s.pc + 1 := rfl
@[simp] theorem advance_z (s : State) : (advance s).z = s.z := rfl
@[simp] theorem advance_c (s : State) : (advance s).c = s.c := rfl
@[simp] theorem advance_running (s : State) : (advance s).running = s.running := rfl
@[simp] theorem advance_stopCause (s : State) : (advance s).stopCause = s.stopCause := rfl
@[simp] theorem advance_faultCode (s : State) : (advance s).faultCode = s.faultCode := rfl
@[simp] theorem advance_faultInfo (s : State) : (advance s).faultInfo = s.faultInfo := rfl
@[simp] theorem advance_stk (s : State) : (advance s).stk = s.stk := rfl
@[simp] theorem advance_mem (s : State) : (advance s).mem = s.mem := rfl
@[simp] theorem advance_imem (s : State) : (advance s).imem = s.imem := rfl
@[simp] theorem advance_outLog (s : State) : (advance s).outLog = s.outLog := rfl
@[simp] theorem advance_diagLog (s : State) : (advance s).diagLog = s.diagLog := rfl
@[simp] theorem advance_stackDepth (s : State) : (advance s).stackDepth = s.stackDepth := rfl
@[simp] theorem advance_sp (s : State) : (advance s).sp = s.sp := rfl

/-! ### `jumpTo` -/

@[simp] theorem jumpTo_a (t : Slot) (s : State) : (jumpTo t s).a = s.a := rfl
@[simp] theorem jumpTo_b (t : Slot) (s : State) : (jumpTo t s).b = s.b := rfl
@[simp] theorem jumpTo_pc (t : Slot) (s : State) : (jumpTo t s).pc = t := rfl
@[simp] theorem jumpTo_z (t : Slot) (s : State) : (jumpTo t s).z = s.z := rfl
@[simp] theorem jumpTo_c (t : Slot) (s : State) : (jumpTo t s).c = s.c := rfl
@[simp] theorem jumpTo_running (t : Slot) (s : State) : (jumpTo t s).running = s.running := rfl
@[simp] theorem jumpTo_stopCause (t : Slot) (s : State) : (jumpTo t s).stopCause = s.stopCause := rfl
@[simp] theorem jumpTo_faultCode (t : Slot) (s : State) : (jumpTo t s).faultCode = s.faultCode := rfl
@[simp] theorem jumpTo_faultInfo (t : Slot) (s : State) : (jumpTo t s).faultInfo = s.faultInfo := rfl
@[simp] theorem jumpTo_stk (t : Slot) (s : State) : (jumpTo t s).stk = s.stk := rfl
@[simp] theorem jumpTo_mem (t : Slot) (s : State) : (jumpTo t s).mem = s.mem := rfl
@[simp] theorem jumpTo_imem (t : Slot) (s : State) : (jumpTo t s).imem = s.imem := rfl
@[simp] theorem jumpTo_outLog (t : Slot) (s : State) : (jumpTo t s).outLog = s.outLog := rfl
@[simp] theorem jumpTo_diagLog (t : Slot) (s : State) : (jumpTo t s).diagLog = s.diagLog := rfl
@[simp] theorem jumpTo_stackDepth (t : Slot) (s : State) : (jumpTo t s).stackDepth = s.stackDepth := rfl
@[simp] theorem jumpTo_sp (t : Slot) (s : State) : (jumpTo t s).sp = s.sp := rfl

/-! ### `writeA` -/

@[simp] theorem writeA_a (v : Byte) (s : State) : (writeA v s).a = v := rfl
@[simp] theorem writeA_b (v : Byte) (s : State) : (writeA v s).b = s.b := rfl
@[simp] theorem writeA_pc (v : Byte) (s : State) : (writeA v s).pc = s.pc := rfl
@[simp] theorem writeA_z (v : Byte) (s : State) : (writeA v s).z = zeroFlagOf v := rfl
@[simp] theorem writeA_c (v : Byte) (s : State) : (writeA v s).c = s.c := rfl
@[simp] theorem writeA_running (v : Byte) (s : State) : (writeA v s).running = s.running := rfl
@[simp] theorem writeA_stopCause (v : Byte) (s : State) : (writeA v s).stopCause = s.stopCause := rfl
@[simp] theorem writeA_faultCode (v : Byte) (s : State) : (writeA v s).faultCode = s.faultCode := rfl
@[simp] theorem writeA_faultInfo (v : Byte) (s : State) : (writeA v s).faultInfo = s.faultInfo := rfl
@[simp] theorem writeA_stk (v : Byte) (s : State) : (writeA v s).stk = s.stk := rfl
@[simp] theorem writeA_mem (v : Byte) (s : State) : (writeA v s).mem = s.mem := rfl
@[simp] theorem writeA_imem (v : Byte) (s : State) : (writeA v s).imem = s.imem := rfl
@[simp] theorem writeA_outLog (v : Byte) (s : State) : (writeA v s).outLog = s.outLog := rfl
@[simp] theorem writeA_diagLog (v : Byte) (s : State) : (writeA v s).diagLog = s.diagLog := rfl
@[simp] theorem writeA_stackDepth (v : Byte) (s : State) : (writeA v s).stackDepth = s.stackDepth := rfl
@[simp] theorem writeA_sp (v : Byte) (s : State) : (writeA v s).sp = s.sp := rfl

/-! ### `writeB` -/

@[simp] theorem writeB_a (v : Byte) (s : State) : (writeB v s).a = s.a := rfl
@[simp] theorem writeB_b (v : Byte) (s : State) : (writeB v s).b = v := rfl
@[simp] theorem writeB_pc (v : Byte) (s : State) : (writeB v s).pc = s.pc := rfl
@[simp] theorem writeB_z (v : Byte) (s : State) : (writeB v s).z = s.z := rfl
@[simp] theorem writeB_c (v : Byte) (s : State) : (writeB v s).c = s.c := rfl
@[simp] theorem writeB_running (v : Byte) (s : State) : (writeB v s).running = s.running := rfl
@[simp] theorem writeB_stopCause (v : Byte) (s : State) : (writeB v s).stopCause = s.stopCause := rfl
@[simp] theorem writeB_faultCode (v : Byte) (s : State) : (writeB v s).faultCode = s.faultCode := rfl
@[simp] theorem writeB_faultInfo (v : Byte) (s : State) : (writeB v s).faultInfo = s.faultInfo := rfl
@[simp] theorem writeB_stk (v : Byte) (s : State) : (writeB v s).stk = s.stk := rfl
@[simp] theorem writeB_mem (v : Byte) (s : State) : (writeB v s).mem = s.mem := rfl
@[simp] theorem writeB_imem (v : Byte) (s : State) : (writeB v s).imem = s.imem := rfl
@[simp] theorem writeB_outLog (v : Byte) (s : State) : (writeB v s).outLog = s.outLog := rfl
@[simp] theorem writeB_diagLog (v : Byte) (s : State) : (writeB v s).diagLog = s.diagLog := rfl
@[simp] theorem writeB_stackDepth (v : Byte) (s : State) : (writeB v s).stackDepth = s.stackDepth := rfl
@[simp] theorem writeB_sp (v : Byte) (s : State) : (writeB v s).sp = s.sp := rfl

/-! ### `setC` -/

@[simp] theorem setC_a (x : Bool) (s : State) : (setC x s).a = s.a := rfl
@[simp] theorem setC_b (x : Bool) (s : State) : (setC x s).b = s.b := rfl
@[simp] theorem setC_pc (x : Bool) (s : State) : (setC x s).pc = s.pc := rfl
@[simp] theorem setC_z (x : Bool) (s : State) : (setC x s).z = s.z := rfl
@[simp] theorem setC_c (x : Bool) (s : State) : (setC x s).c = x := rfl
@[simp] theorem setC_running (x : Bool) (s : State) : (setC x s).running = s.running := rfl
@[simp] theorem setC_stopCause (x : Bool) (s : State) : (setC x s).stopCause = s.stopCause := rfl
@[simp] theorem setC_faultCode (x : Bool) (s : State) : (setC x s).faultCode = s.faultCode := rfl
@[simp] theorem setC_faultInfo (x : Bool) (s : State) : (setC x s).faultInfo = s.faultInfo := rfl
@[simp] theorem setC_stk (x : Bool) (s : State) : (setC x s).stk = s.stk := rfl
@[simp] theorem setC_mem (x : Bool) (s : State) : (setC x s).mem = s.mem := rfl
@[simp] theorem setC_imem (x : Bool) (s : State) : (setC x s).imem = s.imem := rfl
@[simp] theorem setC_outLog (x : Bool) (s : State) : (setC x s).outLog = s.outLog := rfl
@[simp] theorem setC_diagLog (x : Bool) (s : State) : (setC x s).diagLog = s.diagLog := rfl
@[simp] theorem setC_stackDepth (x : Bool) (s : State) : (setC x s).stackDepth = s.stackDepth := rfl
@[simp] theorem setC_sp (x : Bool) (s : State) : (setC x s).sp = s.sp := rfl

/-! ### `setFlags` -/

@[simp] theorem setFlags_a (x y : Bool) (s : State) : (setFlags x y s).a = s.a := rfl
@[simp] theorem setFlags_b (x y : Bool) (s : State) : (setFlags x y s).b = s.b := rfl
@[simp] theorem setFlags_pc (x y : Bool) (s : State) : (setFlags x y s).pc = s.pc := rfl
@[simp] theorem setFlags_z (x y : Bool) (s : State) : (setFlags x y s).z = x := rfl
@[simp] theorem setFlags_c (x y : Bool) (s : State) : (setFlags x y s).c = y := rfl
@[simp] theorem setFlags_running (x y : Bool) (s : State) : (setFlags x y s).running = s.running := rfl
@[simp] theorem setFlags_stopCause (x y : Bool) (s : State) : (setFlags x y s).stopCause = s.stopCause := rfl
@[simp] theorem setFlags_faultCode (x y : Bool) (s : State) : (setFlags x y s).faultCode = s.faultCode := rfl
@[simp] theorem setFlags_faultInfo (x y : Bool) (s : State) : (setFlags x y s).faultInfo = s.faultInfo := rfl
@[simp] theorem setFlags_stk (x y : Bool) (s : State) : (setFlags x y s).stk = s.stk := rfl
@[simp] theorem setFlags_mem (x y : Bool) (s : State) : (setFlags x y s).mem = s.mem := rfl
@[simp] theorem setFlags_imem (x y : Bool) (s : State) : (setFlags x y s).imem = s.imem := rfl
@[simp] theorem setFlags_outLog (x y : Bool) (s : State) : (setFlags x y s).outLog = s.outLog := rfl
@[simp] theorem setFlags_diagLog (x y : Bool) (s : State) : (setFlags x y s).diagLog = s.diagLog := rfl
@[simp] theorem setFlags_stackDepth (x y : Bool) (s : State) : (setFlags x y s).stackDepth = s.stackDepth := rfl
@[simp] theorem setFlags_sp (x y : Bool) (s : State) : (setFlags x y s).sp = s.sp := rfl

/-! ### `recordOutput` -/

@[simp] theorem recordOutput_a (v : Byte) (s : State) : (recordOutput v s).a = s.a := rfl
@[simp] theorem recordOutput_b (v : Byte) (s : State) : (recordOutput v s).b = s.b := rfl
@[simp] theorem recordOutput_pc (v : Byte) (s : State) : (recordOutput v s).pc = s.pc := rfl
@[simp] theorem recordOutput_z (v : Byte) (s : State) : (recordOutput v s).z = s.z := rfl
@[simp] theorem recordOutput_c (v : Byte) (s : State) : (recordOutput v s).c = s.c := rfl
@[simp] theorem recordOutput_running (v : Byte) (s : State) : (recordOutput v s).running = s.running := rfl
@[simp] theorem recordOutput_stopCause (v : Byte) (s : State) : (recordOutput v s).stopCause = s.stopCause := rfl
@[simp] theorem recordOutput_faultCode (v : Byte) (s : State) : (recordOutput v s).faultCode = s.faultCode := rfl
@[simp] theorem recordOutput_faultInfo (v : Byte) (s : State) : (recordOutput v s).faultInfo = s.faultInfo := rfl
@[simp] theorem recordOutput_stk (v : Byte) (s : State) : (recordOutput v s).stk = s.stk := rfl
@[simp] theorem recordOutput_mem (v : Byte) (s : State) : (recordOutput v s).mem = ((s.mem.poke Config.ioOut 0).poke Config.ioCnt ((s.mem.poke Config.ioOut 0).peek Config.ioCnt + 1)) := rfl
@[simp] theorem recordOutput_imem (v : Byte) (s : State) : (recordOutput v s).imem = s.imem := rfl
@[simp] theorem recordOutput_outLog (v : Byte) (s : State) : (recordOutput v s).outLog = s.outLog ++ [v] := rfl
@[simp] theorem recordOutput_diagLog (v : Byte) (s : State) : (recordOutput v s).diagLog = s.diagLog := rfl
@[simp] theorem recordOutput_stackDepth (v : Byte) (s : State) : (recordOutput v s).stackDepth = s.stackDepth := rfl
@[simp] theorem recordOutput_sp (v : Byte) (s : State) : (recordOutput v s).sp = s.sp := rfl

/-! ### `placeNext` -/

@[simp] theorem placeNext_a (w : InstrWord) (s : State) : (placeNext w s).a = s.a := rfl
@[simp] theorem placeNext_b (w : InstrWord) (s : State) : (placeNext w s).b = s.b := rfl
@[simp] theorem placeNext_pc (w : InstrWord) (s : State) : (placeNext w s).pc = s.pc := rfl
@[simp] theorem placeNext_z (w : InstrWord) (s : State) : (placeNext w s).z = s.z := rfl
@[simp] theorem placeNext_c (w : InstrWord) (s : State) : (placeNext w s).c = s.c := rfl
@[simp] theorem placeNext_running (w : InstrWord) (s : State) : (placeNext w s).running = true := rfl
@[simp] theorem placeNext_stopCause (w : InstrWord) (s : State) : (placeNext w s).stopCause = s.stopCause := rfl
@[simp] theorem placeNext_faultCode (w : InstrWord) (s : State) : (placeNext w s).faultCode = s.faultCode := rfl
@[simp] theorem placeNext_faultInfo (w : InstrWord) (s : State) : (placeNext w s).faultInfo = s.faultInfo := rfl
@[simp] theorem placeNext_stk (w : InstrWord) (s : State) : (placeNext w s).stk = s.stk := rfl
@[simp] theorem placeNext_mem (w : InstrWord) (s : State) : (placeNext w s).mem = s.mem := rfl
@[simp] theorem placeNext_imem (w : InstrWord) (s : State) : (placeNext w s).imem = placeWord s.imem s.pc.toNat w := rfl
@[simp] theorem placeNext_outLog (w : InstrWord) (s : State) : (placeNext w s).outLog = s.outLog := rfl
@[simp] theorem placeNext_diagLog (w : InstrWord) (s : State) : (placeNext w s).diagLog = s.diagLog := rfl
@[simp] theorem placeNext_stackDepth (w : InstrWord) (s : State) : (placeNext w s).stackDepth = s.stackDepth := rfl
@[simp] theorem placeNext_sp (w : InstrWord) (s : State) : (placeNext w s).sp = s.sp := rfl

end Sys2Proof.Machine
end

