-- ==== Sys2Proof/Laws/Ops.lean ====
section
/-! SUPPORT. For each shared operation, what it can do, said once, so that no proof unfolds it. -/

namespace Sys2Proof.Machine

/-! ### Masks and cells -/

theorem maskNat_toNat (n : Nat) : (maskNat n).toNat = n % 256 := BitVec.toNat_ofNat n 8

theorem target_toNat (k : Byte) : (target k).toNat = k.toNat := by
  simp [target, BitVec.toNat_setWidth]; omega

theorem cellOf_toNat (v : Byte) : (cellOf v).toNat = v.toNat := by
  simp [cellOf, BitVec.toNat_setWidth]; omega

theorem lowByte_toNat (v : StackCell) : (lowByte v).toNat = v.toNat % 256 := by
  simp [lowByte, BitVec.extractLsb'_toNat]

@[simp] theorem lowByte_cellOf (v : Byte) : lowByte (cellOf v) = v := by
  apply BitVec.eq_of_toNat_eq
  rw [lowByte_toNat, cellOf_toNat]
  exact Nat.mod_eq_of_lt v.isLt

theorem zeroFlagOf_eq (v : Byte) : zeroFlagOf v = decide (v = 0) := rfl

/-! ### Faults -/

@[simp] theorem settle_ok (s s' : State) : settle s (.ok s') = .next s' := rfl

@[simp] theorem settle_error (s : State) (f : RuntimeFault) : settle s (.error f) = .next (raise f s) := rfl

/-- An instruction that may raise always ends in a next state: its result, or the fault. -/
theorem settle_cases (s : State) (r : Except RuntimeFault State) :
    (∃ s', r = .ok s' ∧ settle s r = .next s') ∨ (∃ f, r = .error f ∧ settle s r = .next (raise f s)) := by
  cases r with
  | ok s' => exact .inl ⟨s', rfl, rfl⟩
  | error f => exact .inr ⟨f, rfl, rfl⟩

/-! ### Data memory -/

theorem dataAddress_lt (k : Byte) : dataAddress k < Config.memSize := k.isLt

theorem memRead_of_lt (size addr : Nat) (s : State) (h : addr < size) :
    memRead size addr s = .ok (s.mem.peek addr) := if_neg (by omega)

theorem memRead_of_le (size addr : Nat) (s : State) (h : size ≤ addr) :
    memRead size addr s = .error (.outOfBounds addr) := if_pos h

theorem memWrite_of_lt (size addr : Nat) (v : Byte) (s : State) (h : addr < size) :
    memWrite size addr v s = .ok (storeByte addr v s) := if_neg (by omega)

theorem memWrite_of_le (size addr : Nat) (v : Byte) (s : State) (h : size ≤ addr) :
    memWrite size addr v s = .error (.outOfBounds addr) := if_pos h

/-- An 8-bit address is always inside the memory, so a load of an instruction reads. -/
@[simp] theorem memRead_dataAddress (k : Byte) (s : State) :
    memRead Config.memSize (dataAddress k) s = .ok (s.mem.peek k.toNat) :=
  memRead_of_lt _ _ _ (dataAddress_lt k)

/-- An 8-bit address is always inside the memory, so a store of an instruction stores. -/
@[simp] theorem memWrite_dataAddress (k : Byte) (v : Byte) (s : State) :
    memWrite Config.memSize (dataAddress k) v s = .ok (storeByte k.toNat v s) :=
  memWrite_of_lt _ _ _ _ (dataAddress_lt k)

/-- A store changes memory and, at `IO_OUT`, the output log, and nothing else. -/
theorem storeByte_eq (addr : Nat) (v : Byte) (s : State) :
    storeByte addr v s = { s with
      mem := (storeByte addr v s).mem
      outLog := if addr = Config.ioOut then s.outLog ++ [v] else s.outLog } := by
  unfold storeByte
  split <;> rfl

@[simp] theorem storeByte_a (x : Nat) (v : Byte) (s : State) : (storeByte x v s).a = s.a := by rw [storeByte_eq]
@[simp] theorem storeByte_b (x : Nat) (v : Byte) (s : State) : (storeByte x v s).b = s.b := by rw [storeByte_eq]
@[simp] theorem storeByte_pc (x : Nat) (v : Byte) (s : State) : (storeByte x v s).pc = s.pc := by rw [storeByte_eq]
@[simp] theorem storeByte_z (x : Nat) (v : Byte) (s : State) : (storeByte x v s).z = s.z := by rw [storeByte_eq]
@[simp] theorem storeByte_c (x : Nat) (v : Byte) (s : State) : (storeByte x v s).c = s.c := by rw [storeByte_eq]
@[simp] theorem storeByte_running (x : Nat) (v : Byte) (s : State) : (storeByte x v s).running = s.running := by
  rw [storeByte_eq]
@[simp] theorem storeByte_stopCause (x : Nat) (v : Byte) (s : State) : (storeByte x v s).stopCause = s.stopCause := by
  rw [storeByte_eq]
@[simp] theorem storeByte_faultCode (x : Nat) (v : Byte) (s : State) : (storeByte x v s).faultCode = s.faultCode := by
  rw [storeByte_eq]
@[simp] theorem storeByte_faultInfo (x : Nat) (v : Byte) (s : State) : (storeByte x v s).faultInfo = s.faultInfo := by
  rw [storeByte_eq]
@[simp] theorem storeByte_stk (x : Nat) (v : Byte) (s : State) : (storeByte x v s).stk = s.stk := by rw [storeByte_eq]
@[simp] theorem storeByte_imem (x : Nat) (v : Byte) (s : State) : (storeByte x v s).imem = s.imem := by
  rw [storeByte_eq]
@[simp] theorem storeByte_outLog (x : Nat) (v : Byte) (s : State) :
    (storeByte x v s).outLog = if x = Config.ioOut then s.outLog ++ [v] else s.outLog := by rw [storeByte_eq]
@[simp] theorem storeByte_diagLog (x : Nat) (v : Byte) (s : State) : (storeByte x v s).diagLog = s.diagLog := by
  rw [storeByte_eq]
@[simp] theorem storeByte_stackDepth (x : Nat) (v : Byte) (s : State) :
    (storeByte x v s).stackDepth = s.stackDepth := by rw [storeByte_eq]

/-- What a store away from `IO_OUT` leaves in memory. -/
theorem storeByte_mem_plain (addr : Nat) (v : Byte) (s : State) (h : addr ≠ Config.ioOut) :
    (storeByte addr v s).mem = s.mem.poke addr v := by
  rw [storeByte, if_neg h]

/-- What a store to `IO_OUT` leaves in memory: the buffer cleared, the counter counted on, every other
byte as it was. -/
theorem storeByte_peek_ioOut (v : Byte) (s : State) (x : Nat) :
    (storeByte Config.ioOut v s).mem.peek x =
      if x = Config.ioCnt then s.mem.peek Config.ioCnt + 1
      else if x = Config.ioOut then 0 else s.mem.peek x := by
  rw [storeByte, if_pos rfl, recordOutput_mem]
  simp only [Memory.peek_poke, show Config.ioCnt ≠ Config.ioOut by decide, if_false]
  split
  · rfl
  · split <;> rfl

/-- Every store inside the memory keeps the canonical form. -/
theorem storeByte_mem_wf (addr : Nat) (v : Byte) (s : State) (hm : s.mem.wf = true) (ha : addr < Config.memSize) :
    (storeByte addr v s).mem.wf = true := by
  unfold storeByte
  split
  · exact Memory.wf_poke _ _ _ (Memory.wf_poke _ _ _ (Memory.wf_poke _ _ _ hm ha) (by decide)) (by decide)
  · exact Memory.wf_poke _ _ _ hm ha

theorem reset_mem_wf : State.reset.mem.wf = true := Memory.wf_nil

/-! ### The stack -/

theorem stackFull_iff (s : State) : stackFull s = true ↔ s.stackDepth = some s.sp := by
  simp [stackFull]

theorem stackPush_of_full (v : StackCell) (s : State) (h : s.stackDepth = some s.sp) :
    stackPush v s = .error .stackOverflow := if_pos ((stackFull_iff s).2 h)

theorem stackPush_of_room (v : StackCell) (s : State) (h : s.stackDepth ≠ some s.sp) :
    stackPush v s = .ok { s with stk := v :: s.stk } := if_neg fun e => h ((stackFull_iff s).1 e)

/-- A push either finds the stack full or puts its cell on top and changes nothing else. -/
theorem stackPush_cases (v : StackCell) (s : State) :
    (s.stackDepth = some s.sp ∧ stackPush v s = .error .stackOverflow) ∨
      (s.stackDepth ≠ some s.sp ∧ stackPush v s = .ok { s with stk := v :: s.stk }) := by
  by_cases h : s.stackDepth = some s.sp
  · exact .inl ⟨h, stackPush_of_full v s h⟩
  · exact .inr ⟨h, stackPush_of_room v s h⟩

/-- A pop either finds the stack empty or takes its top and changes nothing else. -/
theorem stackPop_cases (s : State) :
    (s.stk = [] ∧ stackPop s = .error .stackUnderflow) ∨
      (∃ v rest, s.stk = v :: rest ∧ stackPop s = .ok (v, { s with stk := rest })) := by
  rcases h : s.stk with - | ⟨v, rest⟩
  · exact .inl ⟨rfl, by simp [stackPop, h]⟩
  · exact .inr ⟨v, rest, rfl, by simp [stackPop, h]⟩

/-- POPP's pop either finds fewer than two entries or takes the one under the top. -/
theorem stackPopUnder_cases (s : State) :
    (s.sp < 2 ∧ stackPopUnder s = .error .stackUnderflow) ∨
      (∃ r v rest, s.stk = r :: v :: rest ∧ stackPopUnder s = .ok (v, { s with stk := r :: rest })) := by
  rcases h : s.stk with - | ⟨r, - | ⟨v, rest⟩⟩
  · exact .inl ⟨by simp [State.sp, h], by simp [stackPopUnder, h]⟩
  · exact .inl ⟨by simp [State.sp, h], by simp [stackPopUnder, h]⟩
  · exact .inr ⟨r, v, rest, rfl, by simp [stackPopUnder, h]⟩

/-! ### Fetch and step -/

theorem fetch_eq_none (s : State) : fetch s = none ↔ s.progLen ≤ s.pc.toNat := List.getElem?_eq_none_iff

theorem fetch_lt (s : State) (w : InstrWord) (h : fetch s = some w) : s.pc.toNat < s.progLen := by
  by_contra hle
  rw [(fetch_eq_none s).2 (by omega)] at h
  cases h

theorem getElem?_placeWord (p : List InstrWord) (n : Nat) (w : InstrWord) : (placeWord p n w)[n]? = some w := by
  induction n generalizing p with
  | zero => cases p <;> rfl
  | succ n ih => cases p <;> exact ih _

/-- The placed word is the one the next step fetches. -/
theorem fetch_placeNext (w : InstrWord) (s : State) : fetch (placeNext w s) = some w :=
  getElem?_placeWord s.imem s.pc.toNat w

/-- Everything a step can do: stay stopped, find the stream exhausted, raise UnknownInstruction, or run
the decoded instruction. -/
theorem step_cases (s : State) :
    (s.running = false ∧ step s = .next s) ∨
      (s.running = true ∧ fetch s = none ∧ step s = .next (exhaust s)) ∨
      (∃ w e, s.running = true ∧ fetch s = some w ∧ decode w = .error e ∧
        step s = .next (raise (decodeFault e) s)) ∨
      (∃ w i, s.running = true ∧ fetch s = some w ∧ decode w = .ok i ∧ step s = exec i s) := by
  unfold step
  rcases hr : s.running with - | -
  · exact .inl ⟨rfl, by simp⟩
  · rcases hf : fetch s with - | w
    · exact .inr (.inl ⟨rfl, rfl, by simp⟩)
    · rcases hd : decode w with e | i
      · exact .inr (.inr (.inl ⟨w, e, rfl, rfl, hd, by simp [hd]⟩))
      · exact .inr (.inr (.inr ⟨w, i, rfl, rfl, hd, by simp [hd]⟩))

end Sys2Proof.Machine
end

