-- ==== Sys2Proof/Laws/PerInstr.lean ====
section
/-! SUPPORT. Facts about every instruction as syntax, one lemma per constructor: its canonical word has its
opcode byte (spec/30_encoding.md R95), its operand byte or 0x00 (R94), and is what the encoder of the
abstract pair gives for its pair (R98). -/

namespace Sys2Proof.Laws

/-- The canonical word of an instruction, field by field, and the agreement of the two encoders. -/
def CanonicalWord.Statement (i : Instr) : Prop :=
  opField (encode i) = i.mnemonic.opcode ∧ kField (encode i) = i.operand.getD 0x00 ∧
    encodePair i.toPair = .ok (encode i)

/-- The two encoders agree once the pair's operand is the instruction's byte. -/
theorem canonicalWord_of_pair (i : Instr) (h : encodePair i.toPair = .ok (encode i)) :
    CanonicalWord.Statement i :=
  ⟨opField_wordOf _ _, kField_wordOf _ _, h⟩

theorem CanonicalWord.nop : CanonicalWord.Statement .nop := canonicalWord_of_pair _ rfl

theorem CanonicalWord.lda (k : Byte) : CanonicalWord.Statement (.lda k) :=
  canonicalWord_of_pair _ (by
    simp [encodePair, Instr.toPair, Instr.mnemonic, Instr.operand, Mnemonic.format, encode])

theorem CanonicalWord.ldb (k : Byte) : CanonicalWord.Statement (.ldb k) :=
  canonicalWord_of_pair _ (by
    simp [encodePair, Instr.toPair, Instr.mnemonic, Instr.operand, Mnemonic.format, encode])

theorem CanonicalWord.ldaMem (k : Byte) : CanonicalWord.Statement (.ldaMem k) :=
  canonicalWord_of_pair _ (by
    simp [encodePair, Instr.toPair, Instr.mnemonic, Instr.operand, Mnemonic.format, encode, k.isLt])

theorem CanonicalWord.ldbMem (k : Byte) : CanonicalWord.Statement (.ldbMem k) :=
  canonicalWord_of_pair _ (by
    simp [encodePair, Instr.toPair, Instr.mnemonic, Instr.operand, Mnemonic.format, encode, k.isLt])

theorem CanonicalWord.sta (k : Byte) : CanonicalWord.Statement (.sta k) :=
  canonicalWord_of_pair _ (by
    simp [encodePair, Instr.toPair, Instr.mnemonic, Instr.operand, Mnemonic.format, encode, k.isLt])

theorem CanonicalWord.stb (k : Byte) : CanonicalWord.Statement (.stb k) :=
  canonicalWord_of_pair _ (by
    simp [encodePair, Instr.toPair, Instr.mnemonic, Instr.operand, Mnemonic.format, encode, k.isLt])

theorem CanonicalWord.add : CanonicalWord.Statement .add := canonicalWord_of_pair _ rfl

theorem CanonicalWord.sub : CanonicalWord.Statement .sub := canonicalWord_of_pair _ rfl

theorem CanonicalWord.mul : CanonicalWord.Statement .mul := canonicalWord_of_pair _ rfl

theorem CanonicalWord.div : CanonicalWord.Statement .div := canonicalWord_of_pair _ rfl

theorem CanonicalWord.and : CanonicalWord.Statement .and := canonicalWord_of_pair _ rfl

theorem CanonicalWord.or : CanonicalWord.Statement .or := canonicalWord_of_pair _ rfl

theorem CanonicalWord.xor : CanonicalWord.Statement .xor := canonicalWord_of_pair _ rfl

theorem CanonicalWord.shl : CanonicalWord.Statement .shl := canonicalWord_of_pair _ rfl

theorem CanonicalWord.shr : CanonicalWord.Statement .shr := canonicalWord_of_pair _ rfl

theorem CanonicalWord.cmp : CanonicalWord.Statement .cmp := canonicalWord_of_pair _ rfl

theorem CanonicalWord.jmp (k : Byte) : CanonicalWord.Statement (.jmp k) :=
  canonicalWord_of_pair _ (by
    simp [encodePair, Instr.toPair, Instr.mnemonic, Instr.operand, Mnemonic.format, encode, k.isLt])

theorem CanonicalWord.jz (k : Byte) : CanonicalWord.Statement (.jz k) :=
  canonicalWord_of_pair _ (by
    simp [encodePair, Instr.toPair, Instr.mnemonic, Instr.operand, Mnemonic.format, encode, k.isLt])

theorem CanonicalWord.jnz (k : Byte) : CanonicalWord.Statement (.jnz k) :=
  canonicalWord_of_pair _ (by
    simp [encodePair, Instr.toPair, Instr.mnemonic, Instr.operand, Mnemonic.format, encode, k.isLt])

theorem CanonicalWord.push : CanonicalWord.Statement .push := canonicalWord_of_pair _ rfl

theorem CanonicalWord.pop : CanonicalWord.Statement .pop := canonicalWord_of_pair _ rfl

theorem CanonicalWord.call (k : Byte) : CanonicalWord.Statement (.call k) :=
  canonicalWord_of_pair _ (by
    simp [encodePair, Instr.toPair, Instr.mnemonic, Instr.operand, Mnemonic.format, encode, k.isLt])

theorem CanonicalWord.ret : CanonicalWord.Statement .ret := canonicalWord_of_pair _ rfl

theorem CanonicalWord.popp : CanonicalWord.Statement .popp := canonicalWord_of_pair _ rfl

theorem CanonicalWord.halt : CanonicalWord.Statement .halt := canonicalWord_of_pair _ rfl

end Sys2Proof.Laws
end

