-- ==== Sys2Proof/Laws/Run.lean ====
section
/-! SUPPORT. The laws of a run of several steps, and of the byte of memory that a step writes. -/

namespace Sys2Proof.Machine

/-- One step of a run of any machine of the host's interface. -/
theorem coreRun_succ (M : Host.Core) (n : Nat) (s : M.State) :
    M.run (n + 1) s = match M.step s with
      | .next t => M.run n t
      | .fault f => .fault f
      | .refused r => .refused r := rfl

@[simp] theorem runSteps_zero (s : State) : runSteps 0 s = .next s := rfl

/-- One step of a run. -/
theorem runSteps_succ_eq (n : Nat) (s : State) :
    runSteps (n + 1) s = match step s with
      | .next t => runSteps n t
      | .fault f => .fault f
      | .refused r => .refused r := by
  have h := coreRun_succ Sys2Proof.core n s
  rcases hs : step s with t | f | r
  · rw [show Sys2Proof.core.step s = .next t from hs] at h
    exact h
  · rw [show Sys2Proof.core.step s = .fault f from hs] at h
    exact h
  · rw [show Sys2Proof.core.step s = .refused r from hs] at h
    exact h

/-- The first step of a run, where it answers a next state. -/
theorem runSteps_succ (n : Nat) (s t : State) (h : step s = .next t) : runSteps (n + 1) s = runSteps n t := by
  rw [runSteps_succ_eq, h]

/-- A run of `m + n` steps is a run of `m` and then a run of `n`. -/
theorem runSteps_add (m n : Nat) (s t : State) (h : runSteps m s = .next t) :
    runSteps (m + n) s = runSteps n t := by
  induction m generalizing s with
  | zero =>
    rw [runSteps_zero] at h
    cases h
    rw [Nat.zero_add]
  | succ m ih =>
    rw [runSteps_succ_eq] at h
    rw [show m + 1 + n = (m + n) + 1 by omega, runSteps_succ_eq]
    rcases hs : step s with u | f | r
    · rw [hs] at h
      exact ih u h
    · rw [hs] at h
      cases h
    · rw [hs] at h
      cases h

/-- Bytes are equal when their addresses are. -/
theorem byte_toNat_inj (x y : Byte) : x.toNat = y.toNat ↔ x = y :=
  ⟨BitVec.eq_of_toNat_eq, fun h => h ▸ rfl⟩

/-- What a store leaves in every byte of memory, the device included: the byte it stores there, or the old one. -/
theorem storeByte_peek (k v x : Byte) (s : State) :
    (storeByte k.toNat v s).mem.peek x.toNat = (byteStored k v s x).getD (s.mem.peek x.toNat) := by
  unfold byteStored
  by_cases hk : k = 0xF1
  · subst hk
    have hout : x.toNat = 241 ↔ x = 0xF1 := byte_toNat_inj x 0xF1
    have hcnt : x.toNat = 242 ↔ x = 0xF2 := byte_toNat_inj x 0xF2
    have h := storeByte_peek_ioOut v s x.toNat
    simp only [Config.ioOut, Config.ioCnt, hout, hcnt] at h
    rw [if_pos rfl]
    refine h.trans ?_
    by_cases h1 : x = 0xF1
    · subst h1
      rfl
    · by_cases h2 : x = 0xF2
      · subst h2
        rfl
      · rw [if_neg h2, if_neg h1, if_neg h1, if_neg h2]
        rfl
  · rw [storeByte_mem_plain _ _ _ fun h => hk ((byte_toNat_inj k 0xF1).1 h), Memory.peek_poke, if_neg hk]
    simp only [byte_toNat_inj]
    split <;> rfl

@[simp] theorem byteWrittenNext_stopped (x : Byte) (s : State) (h : s.running = false) :
    byteWrittenNext x s = none := by
  simp [byteWrittenNext, h]

/-- What a step that runs a decoded instruction writes in memory. -/
theorem byteWrittenNext_of_decoded (x : Byte) (s : State) (w : InstrWord) (i : Instr) (hr : s.running = true)
    (hf : fetch s = some w) (hd : decode w = .ok i) :
    byteWrittenNext x s = match i with
      | .sta k => byteStored k s.a s x
      | .stb k => byteStored k s.b s x
      | _ => none := by
  simp only [byteWrittenNext, hr, hf, hd, Option.map]
  cases i <;> rfl

end Sys2Proof.Machine
end

