-- ==== Sys2Proof/Tests/Slice0.lean ====
section
/-! SUPPORT. The model's own tests. Expected results are the spec's: the examples of the instruction rules
and the vectors of spec/95_test_vectors.md, whose number stands before each test. -/

namespace Sys2Proof.Tests

open Sys2Proof Sys2Proof.Machine

/-! ### Helpers -/

/-- A running machine at slot 5 of a program of eight NOPs, all else as at reset. -/
def base : State := { State.reset with pc := 5, imem := List.replicate 8 0, running := true }

/-- A field of the next state of an outcome. -/
def view {α : Type} (f : State → α) (o : Host.Outcome State Fault Refusal) : Option α :=
  match o with
  | .next t => some (f t)
  | _ => none

/-- `base` with the registers `a` and `b`. -/
def regs (a b : Byte) : State := { base with a := a, b := b }

/-- What the ALU tests look at: `A`, `Z`, `C`. -/
def azc (t : State) : Byte × Bool × Bool := (t.a, t.z, t.c)

/-- What the stack tests look at: `A`, `Z`, the stack with its top first, `pc`. -/
def azst (t : State) : Byte × Bool × List StackCell × Slot := (t.a, t.z, t.stk, t.pc)

/-- What the stop tests look at: `running`, cause, code, information, `pc`. -/
def stop (t : State) : Bool × StopCause × FaultCode × BitVec 9 × Slot :=
  (t.running, t.stopCause, t.faultCode, t.faultInfo, t.pc)

/-! ### Well-formedness: an ill-formed term for each check -/

/-- R104: "An instruction of format I, M or T takes exactly one operand". -/
theorem test_wf_refuses_missing_operand : Pair.wf { mnemonic := .LDA, operand := none } = false := by decide

/-- R104: "one of format N takes none". -/
theorem test_wf_refuses_extra_operand : Pair.wf { mnemonic := .NOP, operand := some 0 } = false := by decide

/-- R98 b: a data address above 255, a target above 255; an immediate of any size is accepted. -/
theorem test_wf_refuses_wide_address :
    Pair.wf { mnemonic := .STA, operand := some 256 } = false ∧
    Pair.wf { mnemonic := .JMP, operand := some 256 } = false ∧
    Pair.wf { mnemonic := .STA, operand := some 255 } = true ∧
    Pair.wf { mnemonic := .LDA, operand := some 300 } = true := by decide

/-- R254: at most 256 words. -/
theorem test_wf_refuses_long_program :
    programWf (List.replicate 257 0) = false ∧ programWf (List.replicate 256 0) = true := by
  constructor <;> rw [programWf, List.length_replicate] <;> rfl

/-- R99: "A stream of odd length is not a program". -/
theorem test_wf_refuses_odd_stream :
    streamWf [0x01] = false ∧ deserialise [0x01] = none ∧ deserialise [0x01, 0x2A] = some [0x012A] := by decide

/-! ### Decoding: each constructor from a word written out from R95 -/

/-- 40_load_store.md. -/
theorem test_decode_load_store :
    decode 0x0000 = .ok .nop ∧ decode 0x012A = .ok (.lda 42) ∧ decode 0x0205 = .ok (.ldb 5) ∧
    decode 0x0310 = .ok (.ldaMem 16) ∧ decode 0x0411 = .ok (.ldbMem 17) ∧ decode 0x05F1 = .ok (.sta 241) ∧
    decode 0x0620 = .ok (.stb 32) := ⟨rfl, rfl, rfl, rfl, rfl, rfl, rfl⟩

/-- 41_alu.md; A1's word with an operand byte 0x5A too (R94). -/
theorem test_decode_alu :
    decode 0x0700 = .ok .add ∧ decode 0x0800 = .ok .sub ∧ decode 0x0900 = .ok .mul ∧ decode 0x0A00 = .ok .div ∧
    decode 0x0B00 = .ok .and ∧ decode 0x0C00 = .ok .or ∧ decode 0x0D00 = .ok .xor ∧ decode 0x0E00 = .ok .shl ∧
    decode 0x0F00 = .ok .shr ∧ decode 0x1000 = .ok .cmp ∧ decode 0x075A = .ok .add :=
  ⟨rfl, rfl, rfl, rfl, rfl, rfl, rfl, rfl, rfl, rfl, rfl⟩

/-- 42_jump_halt.md; X3. -/
theorem test_decode_jump_halt :
    decode 0x1102 = .ok (.jmp 2) ∧ decode 0x120D = .ok (.jz 13) ∧ decode 0x1309 = .ok (.jnz 9) ∧
    decode 0x1900 = .ok .halt ∧ decode 0x19FF = .ok .halt := ⟨rfl, rfl, rfl, rfl, rfl⟩

/-- 43_stack_call.md. -/
theorem test_decode_stack_call :
    decode 0x1400 = .ok .push ∧ decode 0x1500 = .ok .pop ∧ decode 0x1601 = .ok (.call 1) ∧
    decode 0x1700 = .ok .ret ∧ decode 0x1800 = .ok .popp := ⟨rfl, rfl, rfl, rfl, rfl⟩

/-- R96, R97: the first illegal opcode and the all-ones word. -/
theorem test_decode_illegal :
    decode 0x1A00 = .error (.unknownInstruction 0x1A) ∧ decode 0xFFFF = .error (.unknownInstruction 0xFF) :=
  ⟨rfl, rfl⟩

/-- The table's numbering: the word itself, and nothing for a number wider than a word. -/
theorem test_decodeTableWord :
    decodeTableWord 16 0x0310 = some (.ldaMem 16) ∧ decodeTableWord 8 0x0310 = some .nop ∧
    decodeTableWord 16 0x1A00 = none ∧ decodeTableWord 32 0x10000 = none := ⟨rfl, rfl, rfl, rfl⟩

/-- R98 b: the literal 300 is stored as 44; an address of 256 is refused. -/
theorem test_encodePair :
    encodePair { mnemonic := .LDA, operand := some 300 } = .ok 0x012C ∧
    encodePair { mnemonic := .STA, operand := some 256 } = .error (.operandTooWide 256) := ⟨rfl, rfl⟩

/-- S2: the bytes of program P1. -/
theorem test_serialise :
    serialise [0x012A, 0x0510, 0x0310, 0x05F1, 0x1900] =
      [0x01, 0x2A, 0x05, 0x10, 0x03, 0x10, 0x05, 0xF1, 0x19, 0x00] := by decide

/-- R104: a label, a hexadecimal numeral, a comment, a target given as a label. -/
theorem test_assemble :
    assemble [['s', ':', ' ', 'L', 'D', 'A', ' ', '0', 'x', '2', 'a', ' ', ';', ' ', 'c'], ['J', 'M', 'P', ' ', 's']] =
      .ok [0x012A, 0x1100] := by decide

/-- R104: a label is legal only for format T. -/
theorem test_assemble_refuses_label_operand :
    assemble [['s', ':', 'S', 'T', 'A', ' ', 's']] = .error (.labelNotAllowed 0) := by decide

/-! ### Loads and stores -/

/-- L1. -/
theorem test_nop : view (fun t => (t.pc, t.a, t.z)) (exec .nop { regs 7 0 with z := true }) = some (6, 7, true) := by
  decide

/-- L3, L4. -/
theorem test_lda :
    view azc (exec (.lda 42) { regs 9 0 with z := true }) = some (42, false, false) ∧
    view azc (exec (.lda 0) (regs 9 0)) = some (0, true, false) := by decide

/-- L6, L7: `Z` unchanged. -/
theorem test_ldb :
    view (fun t => (t.b, t.z)) (exec (.ldb 5) { regs 0 1 with z := true }) = some (5, true) ∧
    view (fun t => (t.b, t.z)) (exec (.ldb 0) (regs 0 1)) = some (0, false) := by decide

/-- L8, L9. -/
theorem test_ldaMem :
    view azc (exec (.ldaMem 16) { base with mem := [(16, 42)], z := true }) = some (42, false, false) ∧
    view azc (exec (.ldaMem 200) (regs 3 0)) = some (0, true, false) := by decide

/-- L10, L11. -/
theorem test_ldbMem :
    view (fun t => (t.b, t.z)) (exec (.ldbMem 17) { base with mem := [(17, 200)] }) = some (200, false) ∧
    view (fun t => (t.b, t.z)) (exec (.ldbMem 17) (regs 0 9)) = some (0, false) := by decide

/-- L12, L21: plain stores, the top of memory included. -/
theorem test_sta :
    view (fun t => (t.mem, t.outLog)) (exec (.sta 16) (regs 42 0)) = some ([(16, 42)], []) ∧
    view (fun t => (t.mem, t.outLog)) (exec (.sta 255) (regs 5 0)) = some ([(255, 5)], []) := by decide

/-- L13, L14: the output device, zero included, the counter wrapping. -/
theorem test_sta_output :
    view (fun t => (t.mem, t.outLog)) (exec (.sta 241) { regs 42 0 with mem := [(242, 3)] }) = some ([(242, 4)], [42]) ∧
    view (fun t => (t.mem, t.outLog)) (exec (.sta 241) { regs 0 0 with mem := [(242, 255)] }) = some ([], [0]) := by
  decide

/-- L18, L19. -/
theorem test_stb :
    view (fun t => (t.mem, t.outLog)) (exec (.stb 32) (regs 0 9)) = some ([(32, 9)], []) ∧
    view (fun t => (t.mem, t.outLog)) (exec (.stb 241) (regs 7 0)) = some ([(242, 1)], [0]) := by decide

/-- S6: with `MEM_SIZE = 128`, a store to 200 raises OutOfBounds with `fault_info = 200` and writes nothing. -/
theorem test_store_out_of_bounds :
    view (fun t => (stop t, t.mem)) (settle (regs 1 0) (memWrite 128 200 1 (regs 1 0))) =
      some ((false, .fault, .outOfBounds, 200, 5), []) := rfl

/-! ### ALU -/

/-- A1, A3. -/
theorem test_add :
    view azc (exec .add (regs 100 200)) = some (44, false, false) ∧
    view azc (exec .add { regs 0 0 with c := true }) = some (0, true, true) := by decide

/-- A6, A8. -/
theorem test_sub :
    view azc (exec .sub (regs 3 5)) = some (254, false, false) ∧
    view azc (exec .sub (regs 0 255)) = some (1, false, false) := by decide

/-- A10, A12. -/
theorem test_mul :
    view azc (exec .mul (regs 20 13)) = some (4, false, false) ∧
    view azc (exec .mul (regs 255 255)) = some (1, false, false) := by decide

/-- A14. -/
theorem test_div : view (fun t => (azc t, t.diagLog)) (exec .div (regs 7 2)) = some ((3, false, false), []) := by decide

/-- A18. -/
theorem test_div_by_zero :
    view (fun t => (azc t, t.diagLog, t.running, t.pc)) (exec .div (regs 9 0)) =
      some ((0, true, false), [.divideByZero], true, 6) := by decide

/-- A21, A22. -/
theorem test_and :
    view azc (exec .and (regs 0xCC 0xAA)) = some (0x88, false, false) ∧
    view azc (exec .and (regs 0xF0 0x0F)) = some (0, true, false) := by decide

/-- A23, A24. -/
theorem test_or :
    view azc (exec .or (regs 0xCC 0xAA)) = some (0xEE, false, false) ∧
    view azc (exec .or (regs 0 0)) = some (0, true, false) := by decide

/-- A25, A26. -/
theorem test_xor :
    view azc (exec .xor (regs 0xCC 0xAA)) = some (0x66, false, false) ∧
    view azc (exec .xor (regs 0x5A 0x5A)) = some (0, true, false) := by decide

/-- A27, A29. -/
theorem test_shl :
    view azc (exec .shl (regs 0x81 0)) = some (0x02, false, true) ∧
    view azc (exec .shl { regs 0x40 0 with c := true }) = some (0x80, false, false) := by decide

/-- A32, A33. -/
theorem test_shr :
    view azc (exec .shr (regs 0x01 0)) = some (0x00, true, true) ∧
    view azc (exec .shr { regs 0x80 0 with c := true }) = some (0x40, false, false) := by decide

/-- A36, A42. -/
theorem test_cmp :
    view azc (exec .cmp (regs 1 5)) = some (1, false, true) ∧
    view azc (exec .cmp (regs 0x80 0x7F)) = some (0x80, false, false) := by decide

/-! ### Jumps, halt, stack, call and return -/

/-- J1, J4, J5, J6, J7. -/
theorem test_jumps :
    view (·.pc) (exec (.jmp 2) base) = some 2 ∧
    view (·.pc) (exec (.jz 13) { base with z := true }) = some 13 ∧ view (·.pc) (exec (.jz 13) base) = some 6 ∧
    view (·.pc) (exec (.jnz 9) base) = some 9 ∧ view (·.pc) (exec (.jnz 9) { base with z := true }) = some 6 := by
  decide

/-- J10. -/
theorem test_halt :
    view (fun t => (stop t, t.a)) (exec .halt (regs 7 0)) = some ((false, .halt, .none, 0, 6), 7) := by decide

/-- K1, K16. -/
theorem test_push :
    view azst (exec .push { regs 100 0 with stk := [200] }) = some (100, false, [100, 200], 6) ∧
    view (fun t => (stop t, t.stk)) (exec .push { base with stk := [1, 1], stackDepth := some 2 }) =
      some ((false, .fault, .stackOverflow, 0, 5), [1, 1]) := ⟨rfl, rfl⟩

/-- K4, K5. -/
theorem test_pop :
    view azst (exec .pop { base with stk := [256] }) = some (0, true, [], 6) ∧
    view (fun t => (stop t, t.a)) (exec .pop (regs 7 0)) = some ((false, .fault, .stackUnderflow, 0, 5), 7) := ⟨rfl, rfl⟩

/-- K6, K7. -/
theorem test_call :
    view azst (exec (.call 1) { base with pc := 13, stk := [100, 200] }) = some (0, false, [14, 100, 200], 1) ∧
    view azst (exec (.call 3) { base with pc := 255 }) = some (0, false, [256], 3) := by decide

/-- K9, K11. -/
theorem test_ret :
    view azst (exec .ret { base with stk := [256] }) = some (0, false, [], 256) ∧
    view (fun t => (stop t, t.diagLog)) (exec .ret base) =
      some ((false, .retEmpty, .none, 0, 5), [.returnOnEmptyStack]) := ⟨rfl, rfl⟩

/-- K12, K14, K18. -/
theorem test_popp :
    view azst (exec .popp { base with stk := [14, 100, 200] }) = some (100, false, [14, 200], 6) ∧
    view stop (exec .popp { base with stk := [14] }) = some (false, .fault, .stackUnderflow, 0, 5) ∧
    view azst (exec .popp { base with stk := [14, 7], stackDepth := some 2 }) = some (7, false, [14], 6) := ⟨rfl, rfl, rfl⟩

/-! ### Step, fetch, host -/

/-- X1, X4, J11: an illegal word, an empty program, a `pc` one past slot 255. -/
theorem test_step_stops :
    view stop (step { base with imem := [0, 0, 0, 0, 0, 0xFF00] }) =
      some (false, .fault, .unknownInstruction, 0xFF, 5) ∧
    view stop (step { State.reset with running := true }) = some (false, .exhausted, .none, 0, 0) ∧
    view stop (step { base with pc := 256 }) = some (false, .exhausted, .none, 0, 256) := ⟨rfl, rfl, rfl⟩

/-- The placed word is the one that runs, from reset and from a later slot. -/
theorem test_withFetchWord :
    view azc (step (State.reset.withFetchWord 16 0x012A)) = some (42, false, false) ∧
    view (·.pc) (step (base.withFetchWord 16 0x11C8)) = some 200 := by decide

/-- R254, R255: load, preset, run, and the refusals. -/
theorem test_host :
    view (fun t => (t.runState, t.imem)) (loadProgram [0x1900] State.reset) = some (.idle, [0x1900]) ∧
    loadProgram [] base = .refused .loadWhileRunning ∧
    view (·.mem) (presetByte 16 3 State.reset) = some [(16, 3)] ∧
    presetByte 256 3 State.reset = .fault (.outOfBounds 256) ∧
    view (·.runState) (run State.reset) = some .running ∧
    run { State.reset with stopCause := .halt } = .refused .runNotIdle :=
  ⟨by decide, rfl, by decide, rfl, by decide, rfl⟩

/-! ### Witnesses: for each statement with hypotheses, a state and operands that meet them -/

/-- A running machine whose next word is `w`. -/
def fetching (w : InstrWord) : State := { State.reset with imem := [w], running := true }

theorem witness_decodeEncodeAgree : decode 0x05F1 = .ok (.sta 241) ∧ (Instr.sta 241).mnemonic.format ≠ .N := ⟨rfl, by decide⟩

theorem witness_opcodeMapMatchesEveryWord :
    (0x012A : InstrWord) &&& 0xFF00 = BitVec.ofNat 16 (0x01 * 256) ∧
    (0x012A : InstrWord) &&& 0xFF00 ≠ BitVec.ofNat 16 (0x02 * 256) ∧ decode 0x012A = .ok (.lda 42) :=
  ⟨by decide, by decide, rfl⟩

/-- Both ends of the illegal range, and two programs that differ in a slot that is not fetched. -/
theorem witness_illegalWordsFaultOnlyWhenFetched :
    (fetching 0x1A00).running = true ∧ (fetching 0x1A00).imem[(fetching 0x1A00).pc.toNat]? = some 0x1A00 ∧
    0x1A ≤ (opField 0x1A00).toNat ∧ (fetching 0xFF00).imem[(fetching 0xFF00).pc.toNat]? = some 0xFF00 ∧
    0x1A ≤ (opField 0xFF00).toNat ∧
    [0x1900, 0xFFFF].length = ([0x1900, 0x0000] : List InstrWord).length ∧
    ([0x1900, 0xFFFF] : List InstrWord)[State.reset.pc.toNat]? =
      ([0x1900, 0x0000] : List InstrWord)[State.reset.pc.toNat]? := by decide

theorem witness_formatNOperandByteIgnored : Mnemonic.NOP.format = .N := rfl

theorem witness_pairEncoderMasksOrRefuses :
    Mnemonic.LDA.format = .I ∧ Mnemonic.STA.format = .M ∧ Mnemonic.CALL.format = .T ∧
    encodePair { mnemonic := .STA, operand := some 255 } = .ok 0x05FF := ⟨rfl, rfl, rfl, rfl⟩

/-- The empty program and one of the greatest length. -/
theorem witness_loadProgramResets :
    State.reset.running = false ∧ ([] : List InstrWord).length ≤ 256 ∧
    (List.replicate 256 (0 : InstrWord)).length ≤ 256 :=
  ⟨rfl, Nat.zero_le _, Nat.le_of_eq List.length_replicate⟩

theorem witness_resetMeetsTheInvariant : (none : Option Nat) ≠ some 0 ∧ some 1 ≠ some 0 := by decide

/-- The idle and the halted state; the last byte and the first address outside; each operation allowed. -/
theorem witness_hostOperationsAllowedWhen :
    State.reset.runState = .idle ∧ { State.reset with stopCause := .halt }.runState = .halted ∧
    (view (·.mem) (presetByte 255 1 State.reset) = some [(255, 1)]) ∧ 256 ≤ 256 ∧
    (view (·.running) (run State.reset) = some true) ∧
    (∃ e, readEndState { State.reset with stopCause := .halt } = .next e) :=
  ⟨by decide, by decide, by decide, le_refl _, by decide, ⟨_, rfl⟩⟩

/-- The invariant of a running machine with two bytes of memory, a program and a stack of finite depth. -/
theorem witness_inv : State.Inv { base with mem := [(16, 3), (255, 1)], stk := [256, 7], stackDepth := some 2 } where
  mem_wf := by decide
  prog_len := by decide
  pc_range := by decide
  cell_range := by decide
  sp_range := by rintro d ⟨⟩; decide
  depth_pos := by decide
  running_cause := fun _ => rfl
  code_iff := by decide
  code_in_bounds := by decide
  info_opcode := by decide
  info_zero := fun _ => rfl

theorem witness_inv_idle : State.Inv State.reset where
  mem_wf := by decide
  prog_len := by decide
  pc_range := by decide
  cell_range := by decide
  sp_range := by rintro d ⟨⟩
  depth_pos := by decide
  running_cause := fun _ => rfl
  code_iff := by decide
  code_in_bounds := by decide
  info_opcode := by decide
  info_zero := fun _ => rfl

theorem witness_hostOperationsKeepTheInvariant :
    State.reset.Inv ∧ (∃ t, loadProgram [0x1900] State.reset = .next t) ∧
    (∃ t, presetByte 255 1 State.reset = .next t) ∧ (∃ t, run State.reset = .next t) :=
  ⟨witness_inv_idle, ⟨_, rfl⟩, ⟨_, rfl⟩, ⟨_, rfl⟩⟩

theorem witness_stepRunsDecodedInstruction :
    (fetching 0x012A).running = true ∧ (fetching 0x012A).imem[(fetching 0x012A).pc.toNat]? = some 0x012A ∧
    decode 0x012A = .ok (.lda 42) := ⟨rfl, rfl, rfl⟩

/-- `pc` at `PROG_LEN` exactly. -/
theorem witness_exhaustedStreamEndsTheRun :
    { base with pc := 8 }.running = true ∧ { base with pc := 8 }.progLen ≤ ({ base with pc := 8 } : State).pc.toNat := by
  decide

theorem witness_stoppedMachineStaysAsItIs : State.reset.running = false := rfl

theorem witness_everyStepKeepsTheInvariant :
    State.Inv { base with mem := [(16, 3), (255, 1)], stk := [256, 7], stackDepth := some 2 } ∧
    ∃ t, step { base with mem := [(16, 3), (255, 1)], stk := [256, 7], stackDepth := some 2 } = .next t :=
  ⟨witness_inv, _, rfl⟩

/-- A run of one step that returns. -/
theorem runReturns_of_step (s t : State) (hs : s.running = true) (h : step s = .next t) (ht : t.running = false) :
    runReturns s t :=
  ⟨1, by rw [runSteps_succ 0 s t h, runSteps_zero], ht, fun m hm u hu => by
    obtain rfl : m = 0 := by omega
    cases hu
    exact hs⟩

/-- The four ways a run ends: HALT, the end of the program, RET on an empty stack, and a fault of each kind that
a step can raise. -/
theorem witness_runEndsInOneOfFourWays :
    (∃ t, runReturns (fetching 0x1900) t ∧ t.stopCause = .halt) ∧
    (∃ t, runReturns { base with pc := 8 } t ∧ t.stopCause = .exhausted) ∧
    (∃ t, runReturns (fetching 0x1700) t ∧ t.stopCause = .retEmpty) ∧
    (∃ t, runReturns (fetching 0x1500) t ∧ t.faultCode = .stackUnderflow) ∧
    (∃ t, runReturns (fetching 0x1A00) t ∧ t.faultCode = .unknownInstruction) :=
  ⟨⟨_, runReturns_of_step _ _ rfl rfl rfl, rfl⟩, ⟨_, runReturns_of_step _ _ rfl rfl rfl, rfl⟩,
    ⟨_, runReturns_of_step _ _ rfl rfl rfl, rfl⟩, ⟨_, runReturns_of_step _ _ rfl rfl rfl, rfl⟩,
    ⟨_, runReturns_of_step _ _ rfl rfl rfl, rfl⟩⟩

theorem witness_jumpToItselfNeverEnds :
    (fetching 0x1100).running = true ∧ (fetching 0x1100).imem[(fetching 0x1100).pc.toNat]? = some 0x1100 ∧
    decode 0x1100 = .ok (.jmp 0) ∧ (0 : Byte).toNat = (fetching 0x1100).pc.toNat := ⟨rfl, rfl, rfl, rfl⟩

theorem witness_registerAccessTable :
    Instr.nop.mnemonic ∉ [Mnemonic.LDA, .LDA_MEM, .ADD, .SUB, .MUL, .DIV, .AND, .OR, .XOR, .SHL, .SHR, .POP, .POPP] ∧
    Instr.add.mnemonic ∉ [Mnemonic.LDB, .LDB_MEM] ∧
    Instr.pop.mnemonic ∉ [Mnemonic.STA, .ADD, .SUB, .MUL, .DIV, .AND, .OR, .XOR, .SHL, .SHR, .CMP, .PUSH] ∧
    Instr.push.mnemonic ∉ [Mnemonic.STB, .ADD, .SUB, .MUL, .DIV, .AND, .OR, .XOR, .CMP] := by decide

theorem witness_flagsReadOnlyByZeroJumps : ∀ k : Byte, Instr.add ≠ .jz k ∧ Instr.add ≠ .jnz k :=
  fun _ => ⟨nofun, nofun⟩

theorem witness_stackAndMemoryAreSeparate :
    (Instr.sta 0).mnemonic ∉ [Mnemonic.PUSH, .POP, .POPP, .CALL, .RET] ∧
    Instr.ret.mnemonic ∈ [Mnemonic.PUSH, .POP, .POPP, .CALL, .RET] ∧ base.sp = 0 ∧
    faultOf .ret base = none ∧ faultOf .pop base ≠ none ∧ faultOf .pop { base with stk := [1] } = none := by decide

/-- Both stores; the output address and another one, each with an address that stays. -/
theorem witness_memoryWrittenOnlyByStores :
    Instr.nop.mnemonic ∉ [Mnemonic.STA, .STB] ∧
    (Instr.sta 0xF1 = .sta 0xF1 ∨ Instr.sta 0xF1 = .stb 0xF1) ∧ (Instr.stb 7 = .sta 7 ∨ Instr.stb 7 = .stb 7) ∧
    0xF0 ≠ (0xF1 : Byte).toNat ∧ ((0xF1 : Byte) = 0xF1 → 0xF0 ≠ 0xF2) ∧ (7 : Byte) ≠ 0xF1 := by decide

/-- Each instruction that can fault, at the boundary of its condition. -/
theorem witness_faultingInstructionHasNoEffect :
    faultOf .pop base = some .stackUnderflow ∧ faultOf .popp { base with stk := [14] } = some .stackUnderflow ∧
    faultOf .push { base with stk := [1, 1], stackDepth := some 2 } = some .stackOverflow ∧
    faultOf (.call 0) { base with stk := [1, 1], stackDepth := some 2 } = some .stackOverflow ∧
    (fetching 0x1A00).running = true ∧ fetch (fetching 0x1A00) = some 0x1A00 ∧ 0x1A ≤ (opField 0x1A00).toNat := by
  decide

/-- The same instructions just inside the condition, and one that can never fault. -/
theorem witness_noOtherInstructionFaults :
    faultOf .pop { base with stk := [1] } = none ∧ faultOf .popp { base with stk := [14, 1] } = none ∧
    faultOf .push { base with stk := [1], stackDepth := some 2 } = none ∧ faultOf .halt base = none := by decide

theorem witness_accessPrimitivesCheckBounds : 256 ≤ 256 ∧ 255 < 256 ∧ 0xF1 < 256 := by decide

/-- The counter's address, next to the one left out, and both stores; a store to 0xF1 writes the buffer and the
counter, and not 0xF0 (R63). -/
theorem witness_loadReturnsTheLatestStore :
    ((0xF2 : Byte) ≠ 0xF1 ∧ (Instr.stb 0xF2 = .sta 0xF2 ∧ 5 = (regs 9 5).a ∨ Instr.stb 0xF2 = .stb 0xF2 ∧ 5 = (regs 9 5).b)) ∧
    byteWrittenNext 0xF1 (fetching 0x05F1) = some 0 ∧ byteWrittenNext 0xF2 (fetching 0x06F1) = some 1 ∧
    byteWrittenNext 0xF0 (fetching 0x05F1) = none ∧ byteWrittenNext 0xF0 (fetching 0x05F0) = some (fetching 0x05F0).a := by
  decide

/-- A byte written by the first of two steps, and one that neither wrote. -/
theorem witness_latestValue :
    latestValue 0xF2 1 (fetching 0x05F1) 1 ∧ latestValue 0x10 1 (fetching 0x05F1) 0 :=
  ⟨.inl ⟨0, by decide, _, rfl, rfl, fun j h1 h2 => absurd h1 (by omega)⟩,
    .inr ⟨rfl, fun j hj q hq => by
      obtain rfl : j = 0 := by omega
      cases hq
      rfl⟩⟩

theorem witness_outputBufferStaysZero : State.reset.mem.peek 0xF1 = 0 := by decide

/-- One output, the counter at 1, and a next word that is no store to 0xF2. -/
theorem witness_outputCounterCountsOutputs :
    let s : State := { fetching 0x05F1 with outLog := [9], mem := [(0xF2, 1)] }
    (s.mem.peek 0xF2).toNat = s.outLog.length % 256 ∧
    (∀ w, fetch s = some w → decode w ≠ .ok (.sta 0xF2) ∧ decode w ≠ .ok (.stb 0xF2)) := by
  refine ⟨?_, fun w h => ?_⟩
  · rfl
  · obtain rfl : (0x05F1 : InstrWord) = w := Option.some.inj h
    exact ⟨nofun, nofun⟩

/-- A full stack and one with room, an empty one and one with an entry. -/
theorem witness_stackPrimitivesByIndex :
    ({ base with stk := [1, 1], stackDepth := some 2 } : State).stackDepth =
      some ({ base with stk := [1, 1], stackDepth := some 2 } : State).sp ∧
    ({ base with stk := [1], stackDepth := some 2 } : State).stackDepth ≠
      some ({ base with stk := [1], stackDepth := some 2 } : State).sp ∧
    base.sp = 0 ∧ ({ base with stk := [1] } : State).sp ≠ 0 := by decide

theorem witness_divideResults : (regs 9 0).b = 0 ∧ (regs 255 1).b ≠ 0 := by decide

/-- Also of CallResults, CallThenReturnComesBack and PushThenPopGivesBack. -/
theorem witness_pushResults :
    base.stackDepth ≠ some base.sp ∧
    ({ base with stk := [1], stackDepth := some 2 } : State).stackDepth ≠
      some ({ base with stk := [1], stackDepth := some 2 } : State).sp ∧
    ({ base with stk := [1, 1], stackDepth := some 2 } : State).stackDepth =
      some ({ base with stk := [1, 1], stackDepth := some 2 } : State).sp := by decide

/-- Also of ReturnResults. -/
theorem witness_popResults : ({ base with stk := [256] } : State).stk = [256] ∧ base.sp = 0 := by decide

theorem witness_parameterPopResults :
    ({ base with stk := [14, 256] } : State).stk = [14, 256] ∧ base.sp < 2 ∧ ({ base with stk := [14] } : State).sp < 2 := by
  decide

/-- A stack with exactly room for two, and an unbounded one. -/
theorem witness_parameterIsUnderTheReturnAddress :
    (∀ d, ({ base with stackDepth := some 2 } : State).stackDepth = some d →
      ({ base with stackDepth := some 2 } : State).sp + 2 ≤ d) ∧
    ∀ d, base.stackDepth = some d → base.sp + 2 ≤ d :=
  ⟨by rintro d ⟨⟩; decide, nofun⟩

end Sys2Proof.Tests
end

section
/-! PROOFS. What an instruction leaves, as one total function with one lemma that ties it to `exec`, so that a
statement over all instructions is a table over the cases of that function. -/

namespace Sys2Proof.Machine

/-! ### The stack as a whole -/

/-- The state with another stack, nothing else changed: what the pushes and pops of R36 and R37 come to. -/
def setStk (l : List StackCell) (s : State) : State := { s with stk := l }

@[simp] theorem setStk_stk (l : List StackCell) (s : State) : (setStk l s).stk = l := rfl

/-! ### The effect of an instruction -/

/-- The state an instruction leaves where it raises no fault. A pop reads its cell with a default that stands
for no value of the machine: where the cell is missing `faultOf` names a fault, or RET takes its own way out. -/
def completed (i : Instr) (s : State) : State :=
  match i with
  | .nop => advance s
  | .lda k => advance (writeA k s)
  | .ldb k => advance (writeB k s)
  | .ldaMem k => advance (writeA (s.mem.peek k.toNat) s)
  | .ldbMem k => advance (writeB (s.mem.peek k.toNat) s)
  | .sta k => advance (storeByte k.toNat s.a s)
  | .stb k => advance (storeByte k.toNat s.b s)
  | .add => advance (writeA (aluAdd s.a s.b) s)
  | .sub => advance (writeA (aluSub s.a s.b) s)
  | .mul => advance (writeA (aluMul s.a s.b) s)
  | .div => advance (writeA (aluDiv s.a s.b)
      { s with diagLog := s.diagLog ++ if s.b = 0 then [.divideByZero] else [] })
  | .and => advance (writeA (aluAnd s.a s.b) s)
  | .or => advance (writeA (aluOr s.a s.b) s)
  | .xor => advance (writeA (aluXor s.a s.b) s)
  | .shl => advance (writeA (aluShl s.a) (setC (carryOfShl s.a) s))
  | .shr => advance (writeA (aluShr s.a) (setC (carryOfShr s.a) s))
  | .cmp => advance (setFlags (zeroFlagOfCmp s.a s.b) (carryOfCmp s.a s.b) s)
  | .jmp k => jumpTo (target k) s
  | .jz k => jumpTo (if s.z then target k else s.pc + 1) s
  | .jnz k => jumpTo (if s.z then s.pc + 1 else target k) s
  | .push => advance (setStk (cellOf s.a :: s.stk) s)
  | .pop => advance (writeA (lowByte (s.stk.headD 0)) (setStk s.stk.tail s))
  | .call k => jumpTo (target k) (setStk ((s.pc + 1) :: s.stk) s)
  | .ret => if s.sp = 0 then stopWith .retEmpty (diag .returnOnEmptyStack s)
      else jumpTo (s.stk.headD 0) (setStk s.stk.tail s)
  | .popp => advance (writeA (lowByte (s.stk.getD 1 0)) (setStk (s.stk.eraseIdx 1) s))
  | .halt => advance (stopWith .halt s)

/-- RET with no return address stops the run with its warning (R196). -/
theorem completed_ret_empty {s : State} (h : s.sp = 0) :
    completed .ret s = stopWith .retEmpty (diag .returnOnEmptyStack s) := if_pos h

/-- RET with a return address goes there (R196). -/
theorem completed_ret_nonempty {s : State} (h : s.sp ≠ 0) :
    completed .ret s = jumpTo (s.stk.headD 0) (setStk s.stk.tail s) := if_neg h

/-- The state an instruction leaves: a fault of R211 raised in the state before it, or its result. -/
def effect (i : Instr) (s : State) : State :=
  match faultOf i s with
  | some f => raise f s
  | none => completed i s

theorem effect_of_fault {i : Instr} {s : State} {f : RuntimeFault} (h : faultOf i s = some f) :
    effect i s = raise f s := by
  simp [effect, h]

theorem effect_of_noFault {i : Instr} {s : State} (h : faultOf i s = none) : effect i s = completed i s := by
  simp [effect, h]

/-- Everything an instruction can leave: a raised fault, or the state of its completion. -/
theorem effect_cases (i : Instr) (s : State) :
    (∃ f, faultOf i s = some f ∧ effect i s = raise f s) ∨
      (faultOf i s = none ∧ effect i s = completed i s) := by
  rcases h : faultOf i s with - | f
  · exact .inr ⟨rfl, effect_of_noFault h⟩
  · exact .inl ⟨f, rfl, effect_of_fault h⟩

/-! ### The effect is what `exec` answers -/

theorem faultOf_push (s : State) :
    faultOf .push s = if s.stackDepth = some s.sp then some .stackOverflow else none := rfl

theorem faultOf_call (k : Byte) (s : State) :
    faultOf (.call k) s = if s.stackDepth = some s.sp then some .stackOverflow else none := rfl

theorem faultOf_pop (s : State) : faultOf .pop s = if s.sp = 0 then some .stackUnderflow else none := rfl

theorem faultOf_popp (s : State) : faultOf .popp s = if s.sp < 2 then some .stackUnderflow else none := rfl

theorem exec_push (s : State) : exec .push s = .next (effect .push s) := by
  show settle s ((stackPush (cellOf s.a) s).map advance) = _
  rcases stackPush_cases (cellOf s.a) s with ⟨hfull, hp⟩ | ⟨hroom, hp⟩
  · rw [hp, effect_of_fault ((faultOf_push s).trans (if_pos hfull))]
    rfl
  · rw [hp, effect_of_noFault ((faultOf_push s).trans (if_neg hroom))]
    rfl

theorem exec_call (k : Byte) (s : State) : exec (.call k) s = .next (effect (.call k) s) := by
  show settle s ((stackPush (s.pc + 1) s).map (jumpTo (target k))) = _
  rcases stackPush_cases (s.pc + 1) s with ⟨hfull, hp⟩ | ⟨hroom, hp⟩
  · rw [hp, effect_of_fault ((faultOf_call k s).trans (if_pos hfull))]
    rfl
  · rw [hp, effect_of_noFault ((faultOf_call k s).trans (if_neg hroom))]
    rfl

theorem exec_pop (s : State) : exec .pop s = .next (effect .pop s) := by
  show settle s ((stackPop s).map fun r => advance (writeA (lowByte r.1) r.2)) = _
  rcases stackPop_cases s with ⟨hs, hp⟩ | ⟨v, rest, hs, hp⟩
  · rw [hp, effect_of_fault ((faultOf_pop s).trans (if_pos (by simp [State.sp, hs])))]
    rfl
  · rw [hp, effect_of_noFault ((faultOf_pop s).trans (if_neg (by simp [State.sp, hs])))]
    simp [completed, setStk, hs, Except.map]

theorem exec_popp (s : State) : exec .popp s = .next (effect .popp s) := by
  show settle s ((stackPopUnder s).map fun r => advance (writeA (lowByte r.1) r.2)) = _
  rcases stackPopUnder_cases s with ⟨hs, hp⟩ | ⟨r, v, rest, hs, hp⟩
  · rw [hp, effect_of_fault ((faultOf_popp s).trans (if_pos hs))]
    rfl
  · rw [hp, effect_of_noFault ((faultOf_popp s).trans (if_neg (by simp [State.sp, hs])))]
    simp [completed, setStk, hs, Except.map]

theorem exec_ret (s : State) : exec .ret s = .next (effect .ret s) := by
  rw [effect_of_noFault rfl]
  show execRet s = _
  rcases stackPop_cases s with ⟨hs, hp⟩ | ⟨v, rest, hs, hp⟩ <;>
    simp [execRet, hp, completed, State.sp, setStk, hs]

theorem exec_div (s : State) : exec .div s = .next (effect .div s) := by
  rw [effect_of_noFault rfl]
  show execDiv s = _
  by_cases hb : s.b = 0
  · simp only [execDiv, completed, diag, if_pos hb]
  · simp only [execDiv, completed, if_neg hb, List.append_nil]

/-- Every instruction answers a next state, and `effect` is that state. -/
theorem exec_eq_effect (i : Instr) (s : State) : exec i s = .next (effect i s) := by
  cases i with
  | ldaMem k => exact congrArg (settle s <| ·.map fun v => advance (writeA v s)) (memRead_dataAddress k s)
  | ldbMem k => exact congrArg (settle s <| ·.map fun v => advance (writeB v s)) (memRead_dataAddress k s)
  | sta k => exact congrArg (settle s <| ·.map advance) (memWrite_dataAddress k s.a s)
  | stb k => exact congrArg (settle s <| ·.map advance) (memWrite_dataAddress k s.b s)
  | div => exact exec_div s
  | jz k => exact congrArg Host.Outcome.next (apply_ite (jumpTo · s) _ _ _).symm
  | jnz k => exact congrArg Host.Outcome.next (apply_ite (jumpTo · s) _ _ _).symm
  | push => exact exec_push s
  | pop => exact exec_pop s
  | call k => exact exec_call k s
  | ret => exact exec_ret s
  | popp => exact exec_popp s
  | _ => rfl

/-! ### Which instructions raise, and what -/

/-- Only the four pushes and pops of R211 raise, and only the two faults of the stack. -/
theorem faultOf_eq_some {i : Instr} {s : State} {f : RuntimeFault} (h : faultOf i s = some f) :
    (i = .push ∨ i = .pop ∨ i = .popp ∨ ∃ k, i = .call k) ∧ (f = .stackUnderflow ∨ f = .stackOverflow) := by
  cases i with
  | push => simp [faultOf_push] at h; simp [h]
  | call k => simp [faultOf_call] at h; simp [h]
  | pop => simp [faultOf_pop] at h; simp [h]
  | popp => simp [faultOf_popp] at h; simp [h]
  | _ => cases h

/-- Whether an instruction raises depends on the stack and its depth alone. -/
theorem faultOf_congr (i : Instr) {s s' : State} (hstk : s'.stk = s.stk) (hdepth : s'.stackDepth = s.stackDepth) :
    faultOf i s' = faultOf i s := by
  have hsp : s'.sp = s.sp := congrArg List.length hstk
  cases i <;> simp [faultOf, hsp, hdepth]

/-! ### Steps and runs -/

/-- A stopped machine has no step (R40; log 4). -/
theorem step_of_stopped {s : State} (hr : s.running = false) : step s = .next s := by
  simp [step, hr]

/-- A fetch past the end of the program (R40, R41). -/
theorem step_of_exhausted {s : State} (hr : s.running = true) (hw : fetch s = none) :
    step s = .next (exhaust s) := by
  simp [step, hr, hw]

/-- An illegal word (R96, R215). -/
theorem step_of_illegal {s : State} {w : InstrWord} {e : DecodeError} (hr : s.running = true)
    (hw : fetch s = some w) (hd : decode w = .error e) : step s = .next (raise (decodeFault e) s) := by
  simp [step, hr, hw, hd]

/-- An instruction (R40). -/
theorem step_of_decoded {s : State} {w : InstrWord} {i : Instr} (hr : s.running = true)
    (hw : fetch s = some w) (hd : decode w = .ok i) : step s = exec i s := by
  simp [step, hr, hw, hd]

/-- A relation between a state and the next: it holds of a step when it holds of the four things a step can do. -/
theorem step_rel {R : State → State → Prop} {s : State} (hstay : R s s) (hexhaust : R s (exhaust s))
    (hraise : ∀ f, R s (raise f s)) (hdone : ∀ i, R s (completed i s)) {t : State} (h : step s = .next t) :
    R s t := by
  rcases step_cases s with ⟨-, hs⟩ | ⟨-, -, hs⟩ | ⟨w, e, -, -, -, hs⟩ | ⟨w, i, -, -, -, hs⟩
  · cases hs.symm.trans h
    exact hstay
  · cases hs.symm.trans h
    exact hexhaust
  · cases hs.symm.trans h
    exact hraise _
  · cases (hs.trans (exec_eq_effect i s)).symm.trans h
    rcases effect_cases i s with ⟨f, -, he⟩ | ⟨-, he⟩
    · exact he ▸ hraise f
    · exact he ▸ hdone i

/-- Every step answers a next state. -/
theorem exists_step (s : State) : ∃ t, step s = .next t := by
  rcases step_cases s with ⟨-, h⟩ | ⟨-, -, h⟩ | ⟨w, e, -, -, -, h⟩ | ⟨w, i, -, -, -, h⟩
  · exact ⟨_, h⟩
  · exact ⟨_, h⟩
  · exact ⟨_, h⟩
  · exact ⟨_, h.trans (exec_eq_effect i s)⟩

/-- A relation that holds before and after every step holds before and after every run. -/
theorem runSteps_rel {R : State → State → Prop} (hrefl : ∀ s, R s s) (htrans : ∀ s t u, R s t → R t u → R s u)
    (hstep : ∀ s t, step s = .next t → R s t) (n : Nat) (s : State) : ∃ t, runSteps n s = .next t ∧ R s t := by
  induction n generalizing s with
  | zero => exact ⟨s, rfl, hrefl s⟩
  | succ n ih =>
    obtain ⟨u, hu⟩ := exists_step s
    obtain ⟨t, ht, hR⟩ := ih u
    exact ⟨t, (runSteps_succ n s u hu).trans ht, htrans s u t (hstep s u hu) hR⟩

/-- Every run answers a next state. -/
theorem exists_runSteps (n : Nat) (s : State) : ∃ t, runSteps n s = .next t := by
  obtain ⟨t, ht, -⟩ := runSteps_rel (R := fun _ _ => True) (fun _ => trivial) (fun _ _ _ _ _ => trivial)
    (fun _ _ _ => trivial) n s
  exact ⟨t, ht⟩

/-- The last step of a run. -/
theorem runSteps_last (n : Nat) (s u : State) (h : runSteps n s = .next u) : runSteps (n + 1) s = step u := by
  obtain ⟨t, ht⟩ := exists_step u
  rw [runSteps_add n 1 s u h, runSteps_succ 0 u t ht, runSteps_zero, ht]

end Sys2Proof.Machine
end

section
/-! PROOFS. The invariant of the states a run can reach (spec/10_state.md R25, R31 to R33): it holds at reset and
every step keeps it. Each operation keeps it under the condition its caller meets. -/

namespace Sys2Proof.Machine

/-! ### What is written to `pc` and to the stack is in range -/

theorem target_le (k : Byte) : (target k).toNat ≤ 256 := by
  rw [target_toNat]
  omega

theorem cellOf_le (v : Byte) : (cellOf v).toNat ≤ 256 := target_le v

theorem succ_le_of_lt {p : Slot} (h : p.toNat < 256) : (p + 1).toNat ≤ 256 := by
  bv_omega

/-! ### The invariant through each operation -/

theorem State.Inv.advance {s : State} (h : s.Inv) (hpc : s.pc.toNat < 256) : (advance s).Inv :=
  { h with pc_range := succ_le_of_lt hpc }

theorem State.Inv.jumpTo {s : State} (h : s.Inv) {t : Slot} (ht : t.toNat ≤ 256) : (jumpTo t s).Inv :=
  { h with pc_range := ht }

theorem State.Inv.writeA {s : State} (h : s.Inv) (v : Byte) : (writeA v s).Inv := { h with }

theorem State.Inv.writeB {s : State} (h : s.Inv) (v : Byte) : (writeB v s).Inv := { h with }

theorem State.Inv.setC {s : State} (h : s.Inv) (c : Bool) : (setC c s).Inv := { h with }

theorem State.Inv.setFlags {s : State} (h : s.Inv) (z c : Bool) : (setFlags z c s).Inv := { h with }

/-- The invariant does not speak of the logs. -/
theorem State.Inv.withDiagLog {s : State} (h : s.Inv) (ds : List Diagnostic) :
    State.Inv { s with diagLog := ds } := { h with }

theorem State.Inv.diag {s : State} (h : s.Inv) (d : Diagnostic) : (diag d s).Inv := h.withDiagLog _

theorem State.Inv.storeByte {s : State} (h : s.Inv) (k v : Byte) : (storeByte k.toNat v s).Inv := by
  rw [storeByte_eq]
  exact { h with mem_wf := storeByte_mem_wf _ _ _ h.mem_wf k.isLt }

theorem State.Inv.setStk {s : State} (h : s.Inv) {l : List StackCell} (hcell : ∀ v ∈ l, v.toNat ≤ 256)
    (hlen : ∀ d, s.stackDepth = some d → l.length ≤ d) : (setStk l s).Inv :=
  { h with cell_range := hcell, sp_range := hlen }

/-- A push of a cell in range onto a stack with room. -/
theorem State.Inv.push {s : State} (h : s.Inv) {v : StackCell} (hv : v.toNat ≤ 256)
    (hroom : s.stackDepth ≠ some s.sp) : (Machine.setStk (v :: s.stk) s).Inv := by
  refine h.setStk (List.forall_mem_cons.2 ⟨hv, h.cell_range⟩) fun d hd => ?_
  have hle : s.sp ≤ d := h.sp_range d hd
  have hne : s.sp ≠ d := fun e => hroom (e ▸ hd)
  exact Nat.lt_of_le_of_ne hle hne

/-- A pop keeps some of the old cells. -/
theorem State.Inv.pop {s : State} (h : s.Inv) {l : List StackCell} (hl : l.Sublist s.stk) :
    (Machine.setStk l s).Inv :=
  h.setStk (fun v hv => h.cell_range v (hl.subset hv)) fun d hd => hl.length_le.trans (h.sp_range d hd)

/-- The top cell is in range, and so is the default of a missing one. -/
theorem State.Inv.top_range {s : State} (h : s.Inv) : (s.stk.headD 0).toNat ≤ 256 := by
  rcases hs : s.stk with - | ⟨v, rest⟩
  · simp
  · exact h.cell_range v (by simp [hs])

/-- A machine that runs has recorded no fault yet. -/
theorem State.Inv.faultCode_of_running {s : State} (h : s.Inv) (hr : s.running = true) : s.faultCode = .none := by
  by_contra hne
  have hcause := h.code_iff.1 hne
  rw [h.running_cause hr] at hcause
  cases hcause

/-- A running machine stops with a cause that is no fault. -/
theorem State.Inv.stopWith {s : State} (h : s.Inv) (hr : s.running = true) {k : StopCause} (hk : k ≠ .fault) :
    (stopWith k s).Inv :=
  { h with
    running_cause := nofun
    code_iff := iff_of_false (not_not_intro (h.faultCode_of_running hr)) hk }

/-- A fault that a step can raise: any but OutOfBounds, and UnknownInstruction with an illegal opcode byte. -/
theorem State.Inv.raise {s : State} (h : s.Inv) (f : RuntimeFault) (hbounds : ∀ x, f ≠ .outOfBounds x)
    (hop : ∀ op, f = .unknownInstruction op → 0x1A ≤ op.toNat) : (raise f s).Inv := by
  have hcode : (Machine.raise f s).faultCode ≠ .none ↔ (Machine.raise f s).stopCause = .fault :=
    iff_of_true (by cases f <;> simp [faultCodeOf]) rfl
  cases f with
  | outOfBounds x => exact absurd rfl (hbounds x)
  | unknownInstruction op =>
    have hlow : 0x1A ≤ op.toNat := hop op rfl
    have hinfo : (op.zeroExtend 9).toNat = op.toNat := target_toNat op
    exact { h with
      running_cause := nofun
      code_iff := hcode
      code_in_bounds := nofun
      info_opcode := fun _ => by
        show 0x1A ≤ (op.zeroExtend 9).toNat ∧ (op.zeroExtend 9).toNat ≤ 0xFF
        omega
      info_zero := fun hne => absurd rfl hne }
  | stackUnderflow | stackOverflow =>
    exact { h with
      running_cause := nofun
      code_iff := hcode
      code_in_bounds := nofun
      info_opcode := nofun
      info_zero := fun _ => rfl }

/-! ### The invariant through instructions and steps -/

/-- An instruction that raises no fault keeps the invariant, fetched from a slot below 256. -/
theorem completed_inv {i : Instr} {s : State} (h : s.Inv) (hr : s.running = true) (hpc : s.pc.toNat < 256)
    (hf : faultOf i s = none) : (completed i s).Inv := by
  have hnext : (s.pc + 1).toNat ≤ 256 := succ_le_of_lt hpc
  cases i with
  | nop => exact h.advance hpc
  | lda | ldaMem | add | sub | mul | and | or | xor => exact (h.writeA _).advance hpc
  | ldb | ldbMem => exact (h.writeB _).advance hpc
  | sta k => exact (h.storeByte k s.a).advance (by simpa using hpc)
  | stb k => exact (h.storeByte k s.b).advance (by simpa using hpc)
  | div => exact ((h.withDiagLog _).writeA _).advance hpc
  | shl | shr => exact ((h.setC _).writeA _).advance hpc
  | cmp => exact (h.setFlags _ _).advance hpc
  | jmp k => exact h.jumpTo (target_le k)
  | jz k => exact h.jumpTo (by split; exacts [target_le k, hnext])
  | jnz k => exact h.jumpTo (by split; exacts [hnext, target_le k])
  | push =>
    have hroom : s.stackDepth ≠ some s.sp := by simpa [faultOf_push] using hf
    exact (h.push (cellOf_le s.a) hroom).advance hpc
  | call k =>
    have hroom : s.stackDepth ≠ some s.sp := by simpa [faultOf_call] using hf
    exact (h.push hnext hroom).jumpTo (target_le k)
  | pop => exact ((h.pop (List.tail_sublist _)).writeA _).advance hpc
  | popp => exact ((h.pop (List.eraseIdx_sublist _ _)).writeA _).advance hpc
  | ret =>
    by_cases hsp : s.sp = 0
    · rw [completed_ret_empty hsp]
      exact (h.diag _).stopWith (k := .retEmpty) hr nofun
    · rw [completed_ret_nonempty hsp]
      exact (h.pop (List.tail_sublist _)).jumpTo h.top_range
  | halt => exact (h.stopWith (k := .halt) hr nofun).advance hpc

/-- Every instruction keeps the invariant, fetched from a slot below 256. -/
theorem effect_inv {i : Instr} {s : State} (h : s.Inv) (hr : s.running = true) (hpc : s.pc.toNat < 256) :
    (effect i s).Inv := by
  rcases effect_cases i s with ⟨f, hf, he⟩ | ⟨hf, he⟩
  · rw [he]
    obtain ⟨-, rfl | rfl⟩ := faultOf_eq_some hf
    · exact h.raise _ nofun nofun
    · exact h.raise _ nofun nofun
  · exact he ▸ completed_inv h hr hpc hf

/-- A fetched slot is below 256, so the step after it does not wrap. -/
theorem State.Inv.pc_lt_of_fetch {s : State} (h : s.Inv) {w : InstrWord} (hw : fetch s = some w) :
    s.pc.toNat < 256 :=
  (fetch_lt s w hw).trans_le h.prog_len

/-- A word that decodes to no instruction has an illegal opcode byte, which its fault records. -/
theorem decode_error {w : InstrWord} {e : DecodeError} (h : decode w = .error e) :
    e = .unknownInstruction (opField w) ∧ 0x1A ≤ (opField w).toNat := by
  rcases Laws.decode_cases w with ⟨m, -, hd⟩ | ⟨hop, hd⟩
  · cases h.symm.trans hd
  · cases h.symm.trans hd
    exact ⟨rfl, hop⟩

/-- Settles O16, by the four things a step can do. -/
theorem everyStepKeepsTheInvariant : Obligations.EveryStepKeepsTheInvariant := by
  intro s t h hstep
  rcases step_cases s with ⟨-, hs⟩ | ⟨hr, -, hs⟩ | ⟨w, e, -, -, hd, hs⟩ | ⟨w, i, hr, hw, -, hs⟩
  · cases hs.symm.trans hstep
    exact h
  · cases hs.symm.trans hstep
    exact h.stopWith hr nofun
  · cases hs.symm.trans hstep
    obtain ⟨rfl, hop⟩ := decode_error hd
    refine h.raise _ nofun ?_
    rintro op ⟨⟩
    exact hop
  · cases (hs.trans (exec_eq_effect i s)).symm.trans hstep
    exact effect_inv h hr (h.pc_lt_of_fetch hw)

/-- Settles O9: no field that the invariant bounds is set at reset, and the depth is the given one. -/
theorem resetMeetsTheInvariant : Obligations.ResetMeetsTheInvariant := by
  have hdepth : ∀ d : Option Nat, d ≠ some 0 → State.Inv { State.reset with stackDepth := d } := fun d hd =>
    { mem_wf := reset_mem_wf
      prog_len := Nat.zero_le _
      pc_range := Nat.zero_le _
      cell_range := nofun
      sp_range := fun _ _ => Nat.zero_le _
      depth_pos := hd
      running_cause := nofun
      code_iff := iff_of_false (not_not_intro rfl) nofun
      code_in_bounds := nofun
      info_opcode := nofun
      info_zero := fun _ => rfl }
  exact ⟨hdepth none nofun, hdepth⟩

end Sys2Proof.Machine
end

section
/-! PROOFS. The step and the run (spec/10_state.md R31, R40, R41): what a step runs, that it always answers, and the
four ways a run ends. -/

namespace Sys2Proof.Machine

/-- Settles O12: the model's step has nothing around the instruction's own rule. -/
theorem stepRunsDecodedInstruction : Obligations.StepRunsDecodedInstruction :=
  fun _ _ _ hr hw hd => step_of_decoded hr hw hd

/-- Settles O13: the fetch finds no word, and `exhaust` writes the two registers. -/
theorem exhaustedStreamEndsTheRun : Obligations.ExhaustedStreamEndsTheRun :=
  fun s hr hpc => step_of_exhausted hr ((fetch_eq_none s).2 hpc)

/-- Settles O14, by induction on the number of steps. -/
theorem stoppedMachineStaysAsItIs : Obligations.StoppedMachineStaysAsItIs := by
  intro n s hr
  induction n with
  | zero => rfl
  | succ n ih => exact (runSteps_succ n s s (step_of_stopped hr)).trans ih

/-- Settles O15: an instruction answers its `effect`, and a run is made of such answers. -/
theorem everyStepAnswersANextState : Obligations.EveryStepAnswersANextState :=
  ⟨fun i s => ⟨effect i s, exec_eq_effect i s⟩, exists_runSteps⟩

/-! ### What clears `running` -/

/-- A completed instruction leaves `running` and the stop cause, but for HALT and for RET on an empty stack. -/
theorem completed_running (i : Instr) (s : State) (hhalt : i ≠ .halt) (hret : ¬(i = .ret ∧ s.sp = 0)) :
    (completed i s).running = s.running ∧ (completed i s).stopCause = s.stopCause := by
  cases i with
  | sta | stb => simp [completed]
  | ret =>
    rw [completed_ret_nonempty fun hsp => hret ⟨rfl, hsp⟩]
    exact ⟨rfl, rfl⟩
  | halt => exact absurd rfl hhalt
  | _ => exact ⟨rfl, rfl⟩

/-- Settles O31, by what an instruction can leave. -/
theorem runningFlagTable : Obligations.RunningFlagTable := by
  refine ⟨fun i s => ⟨effect i s, exec_eq_effect i s, ?_⟩,
    rfl, rfl, rfl, rfl, rfl, rfl, rfl, rfl, rfl, rfl⟩
  rcases effect_cases i s with ⟨f, hf, he⟩ | ⟨hf, he⟩ <;> simp only [he, hf]
  · exact ⟨rfl, rfl⟩
  · rw [if_neg (not_not_intro rfl)]
    split_ifs with hhalt hret
    · subst hhalt
      exact ⟨rfl, rfl⟩
    · obtain ⟨rfl, hsp⟩ := hret
      rw [completed_ret_empty hsp]
      exact ⟨rfl, rfl⟩
    · exact completed_running i s hhalt hret

/-! ### The ways a run ends -/

/-- The last step of a run, from `u` to `t`, ends it in one of the four ways of R41. -/
def EndsRun (u t : State) : Prop :=
  (t.stopCause = .halt ∧ (∃ w, fetch u = some w ∧ decode w = .ok .halt) ∧ t.pc = u.pc + 1) ∨
  (t.stopCause = .exhausted ∧ u.progLen ≤ u.pc.toNat ∧ t.pc = u.pc) ∨
  (t.stopCause = .retEmpty ∧ (∃ w, fetch u = some w ∧ decode w = .ok .ret) ∧ u.sp = 0 ∧ t.pc = u.pc ∧
    t.diagLog = u.diagLog ++ [.returnOnEmptyStack]) ∨
  (t.stopCause = .fault ∧ t.faultCode ≠ .none ∧ t.pc = u.pc ∧ ∃ w, fetch u = some w ∧
    (0x1A ≤ (opField w).toNat ∨ ∃ i, decode w = .ok i ∧ faultOf i u ≠ none))

theorem faultCodeOf_ne_none (f : RuntimeFault) : faultCodeOf f ≠ .none := by
  cases f <;> exact nofun

/-- An instruction that clears `running` ends the run by HALT, by RET on an empty stack or by a fault. -/
theorem effect_endsRun {u : State} {w : InstrWord} {i : Instr} (hr : u.running = true) (hw : fetch u = some w)
    (hd : decode w = .ok i) (ht : (effect i u).running = false) : EndsRun u (effect i u) := by
  rcases effect_cases i u with ⟨f, hf, he⟩ | ⟨hf, he⟩
  · rw [he]
    exact .inr (.inr (.inr ⟨rfl, faultCodeOf_ne_none f, rfl, w, hw, .inr ⟨i, hd, by simp [hf]⟩⟩))
  · rw [he] at ht ⊢
    by_cases hhalt : i = .halt
    · subst hhalt
      exact .inl ⟨rfl, ⟨w, hw, hd⟩, rfl⟩
    · by_cases hret : i = .ret ∧ u.sp = 0
      · obtain ⟨rfl, hsp⟩ := hret
        rw [completed_ret_empty hsp]
        exact .inr (.inr (.inl ⟨rfl, ⟨w, hw, hd⟩, hsp, rfl, rfl⟩))
      · have hsame := (completed_running i u hhalt hret).1
        rw [ht, hr] at hsame
        cases hsame

/-- A step that clears `running` ends the run in one of the four ways. -/
theorem step_endsRun {u t : State} (hr : u.running = true) (h : step u = .next t) (ht : t.running = false) :
    EndsRun u t := by
  rcases step_cases u with ⟨hstop, -⟩ | ⟨-, hw, hs⟩ | ⟨w, e, -, hw, hd, hs⟩ | ⟨w, i, -, hw, hd, hs⟩
  · rw [hr] at hstop
    cases hstop
  · cases hs.symm.trans h
    exact .inr (.inl ⟨rfl, (fetch_eq_none u).1 hw, rfl⟩)
  · cases hs.symm.trans h
    exact .inr (.inr (.inr ⟨rfl, faultCodeOf_ne_none (decodeFault e), rfl, w, hw, .inl (decode_error hd).2⟩))
  · cases (hs.trans (exec_eq_effect i u)).symm.trans h
    exact effect_endsRun hr hw hd ht

/-- A run that returns has a last step, taken by a running machine. -/
theorem runReturns_last {s t : State} (hr : s.running = true) (h : runReturns s t) :
    ∃ n u, runSteps n s = .next u ∧ u.running = true ∧ step u = .next t ∧ t.running = false := by
  obtain ⟨n, hn, ht, hbefore⟩ := h
  cases n with
  | zero =>
    cases hn
    rw [hr] at ht
    cases ht
  | succ n =>
    obtain ⟨u, hu⟩ := exists_runSteps n s
    exact ⟨n, u, hu, hbefore n (Nat.lt_succ_self n) u hu, (runSteps_last n s u hu).symm.trans hn, ht⟩

/-- Settles O17, by the last step of the run. -/
theorem runEndsInOneOfFourWays : Obligations.RunEndsInOneOfFourWays := by
  intro s t hr h
  obtain ⟨n, u, hu, hur, hstep, ht⟩ := runReturns_last hr h
  exact ⟨u, ⟨n, hu⟩, hur, hstep, step_endsRun hur hstep ht⟩

end Sys2Proof.Machine
end

section
/-! PROOFS. What each instruction writes in the flags and in `pc`: the tables of spec/10_state.md R24, R27, R29. -/

namespace Sys2Proof.Machine

/-- A field that no fault writes, after an instruction: as it was where the instruction raises, and else what its
completion leaves. -/
theorem effect_field {α : Type} (field : State → α) (i : Instr) (s : State) (x : α)
    (hraise : ∀ f, field (raise f s) = field s) (hdone : faultOf i s = none → field (completed i s) = x) :
    field (effect i s) = if faultOf i s ≠ none then field s else x := by
  rcases effect_cases i s with ⟨f, hf, he⟩ | ⟨hf, he⟩
  · rw [he, hraise, if_pos (by simp [hf])]
  · rw [he, hdone hf, if_neg (not_not_intro hf)]

/-- Settles O19, by the instructions: `writeA` recomputes `Z` from the value it writes. -/
theorem zeroFlagTable : Obligations.ZeroFlagTable := by
  intro i s
  refine ⟨effect i s, exec_eq_effect i s, effect_field State.z i s _ (fun _ => rfl) fun hf => ?_⟩
  rw [effect_of_noFault hf]
  cases i with
  | sta k => exact storeByte_z _ _ s
  | stb k => exact storeByte_z _ _ s
  | ret => exact (apply_ite State.z _ _ _).trans (ite_self _)
  | _ => rfl

/-- Settles O20, by the instructions: only SHL, SHR and CMP call an operation that writes `C`. -/
theorem carryFlagTable : Obligations.CarryFlagTable := by
  intro i s
  refine ⟨effect i s, exec_eq_effect i s, ?_⟩
  rcases effect_cases i s with ⟨f, hf, he⟩ | ⟨-, he⟩ <;> rw [he]
  · obtain ⟨rfl | rfl | rfl | ⟨k, rfl⟩, -⟩ := faultOf_eq_some hf <;> rfl
  · cases i with
    | sta k => exact storeByte_c _ _ s
    | stb k => exact storeByte_c _ _ s
    | ret => exact (apply_ite State.c _ _ _).trans (ite_self _)
    | _ => rfl

theorem target_eq (k : Byte) : target k = BitVec.ofNat 9 k.toNat := by
  apply BitVec.eq_of_toNat_eq
  rw [target_toNat, BitVec.toNat_ofNat]
  omega

/-- `stk[sp-1]` is the head of the list (R35; log 10). -/
theorem stkAt_top (s : State) : s.stkAt (s.sp - 1) = s.stk.head? := by
  rw [State.stkAt, State.sp, ← List.length_reverse, ← List.getLast?_eq_getElem?, List.getLast?_reverse]

/-- Settles O21, by the instructions. -/
theorem programCounterTable : Obligations.ProgramCounterTable := by
  intro i s
  refine ⟨effect i s, exec_eq_effect i s, effect_field State.pc i s _ (fun _ => rfl) fun hf => ?_⟩
  cases i with
  | sta k => exact congrArg (· + 1) (storeByte_pc _ _ s)
  | stb k => exact congrArg (· + 1) (storeByte_pc _ _ s)
  | jmp k => exact target_eq k
  | call k => exact target_eq k
  | jz k => exact congrArg (if s.z then · else s.pc + 1) (target_eq k)
  | jnz k => cases hz : s.z <;> simp [completed, hz, target_eq]
  | ret =>
    show _ = (s.stkAt (s.sp - 1)).getD s.pc
    rw [stkAt_top]
    rcases hs : s.stk with - | ⟨v, rest⟩ <;> simp [completed, State.sp, hs]
  | _ => rfl

end Sys2Proof.Machine
end

section
/-! PROOFS. What no instruction reads (spec/10_state.md R21, R30, R39): two states that differ in a part of the state
that an instruction does not read end in states that differ in that part only. -/

namespace Sys2Proof.Machine

/-! ### Two states side by side -/

/-- A relation between the effects of one instruction on two states with the same stack, from its two cases. -/
theorem effect_pair (R : State → State → Prop) {i : Instr} {s s' : State} (hstk : s'.stk = s.stk)
    (hdepth : s'.stackDepth = s.stackDepth) (hraise : ∀ f, R (raise f s) (raise f s'))
    (hdone : R (completed i s) (completed i s')) : R (effect i s) (effect i s') := by
  have hsame : faultOf i s' = faultOf i s := faultOf_congr i hstk hdepth
  rcases effect_cases i s with ⟨f, hf, he⟩ | ⟨hf, he⟩
  · rw [he, effect_of_fault (hsame.trans hf)]
    exact hraise f
  · rw [he, effect_of_noFault (hsame.trans hf)]
    exact hdone

/-! A store and RET test something before they write, so their independence is proved once for every update. -/

/-- A store commutes with an update that commutes with what it does at `IO_OUT` and elsewhere. -/
theorem storeByte_comm (u : State → State) (x : Nat) (v : Byte) (s : State)
    (hplain : { u s with mem := (u s).mem.poke x v } = u { s with mem := s.mem.poke x v })
    (hout : recordOutput v { u s with mem := (u s).mem.poke x v } =
      u (recordOutput v { s with mem := s.mem.poke x v })) :
    storeByte x v (u s) = u (storeByte x v s) := by
  unfold storeByte
  split
  · exact hout
  · exact hplain

/-- RET commutes with an update that leaves `sp` and commutes with its two ways out. -/
theorem completed_ret_comm (u : State → State) (s : State) (hsp : (u s).sp = s.sp)
    (hstop : stopWith .retEmpty (diag .returnOnEmptyStack (u s)) =
      u (stopWith .retEmpty (diag .returnOnEmptyStack s)))
    (hjump : jumpTo ((u s).stk.headD 0) (setStk (u s).stk.tail (u s)) =
      u (jumpTo (s.stk.headD 0) (setStk s.stk.tail s))) :
    completed .ret (u s) = u (completed .ret s) := by
  by_cases h : s.sp = 0
  · rw [completed_ret_empty h, completed_ret_empty (hsp.trans h), hstop]
  · rw [completed_ret_nonempty h, completed_ret_nonempty (hsp ▸ h), hjump]

theorem storeByte_withLogs (x : Nat) (v : Byte) (out : List Byte) (ds : List Diagnostic) (s : State) :
    storeByte x v { s with outLog := out, diagLog := ds } =
      { storeByte x v s with outLog := if x = Config.ioOut then out ++ [v] else out, diagLog := ds } := by
  unfold storeByte
  split <;> rfl

theorem completed_ret_withLogs (out : List Byte) (ds : List Diagnostic) (s : State) :
    completed .ret { s with outLog := out, diagLog := ds } =
      { completed .ret s with
        outLog := out, diagLog := ds ++ if s.sp = 0 then [.returnOnEmptyStack] else [] } := by
  by_cases hsp : s.sp = 0
  · rw [completed_ret_empty hsp, if_pos hsp]
    exact completed_ret_empty hsp
  · rw [completed_ret_nonempty hsp, if_neg hsp, List.append_nil]
    exact completed_ret_nonempty hsp

/-! ### The general registers -/

/-- The rows of R21 that read `A`. -/
def readsA : List Mnemonic := [.STA, .ADD, .SUB, .MUL, .DIV, .AND, .OR, .XOR, .SHL, .SHR, .CMP, .PUSH]

/-- The rows of R21 that read `B`. -/
def readsB : List Mnemonic := [.STB, .ADD, .SUB, .MUL, .DIV, .AND, .OR, .XOR, .CMP]

/-- A completed instruction that does not read `A` either overwrites it or carries it along. -/
theorem completed_withA {i : Instr} (h : i.mnemonic ∉ readsA) (s : State) (v : Byte) :
    ∃ x, (x = v ∨ x = (completed i s).a) ∧ completed i { s with a := v } = { completed i s with a := x } := by
  cases i with
  | sta | add | sub | mul | div | and | or | xor | shl | shr | cmp | push =>
    exact absurd (by simp [readsA, Instr.mnemonic]) h
  | lda | ldaMem | pop | popp => exact ⟨_, .inr rfl, rfl⟩
  | stb k => exact ⟨v, .inl rfl, congrArg advance (storeByte_comm ({ · with a := v }) _ _ s rfl rfl)⟩
  | ret => exact ⟨v, .inl rfl, completed_ret_comm ({ · with a := v }) s rfl rfl rfl⟩
  | _ => exact ⟨v, .inl rfl, rfl⟩

/-- A completed instruction that does not read `B` either overwrites it or carries it along. -/
theorem completed_withB {i : Instr} (h : i.mnemonic ∉ readsB) (s : State) (v : Byte) :
    ∃ x, (x = v ∨ x = (completed i s).b) ∧ completed i { s with b := v } = { completed i s with b := x } := by
  cases i with
  | stb | add | sub | mul | div | and | or | xor | cmp => exact absurd (by simp [readsB, Instr.mnemonic]) h
  | ldb | ldbMem => exact ⟨_, .inr rfl, rfl⟩
  | sta k => exact ⟨v, .inl rfl, congrArg advance (storeByte_comm ({ · with b := v }) _ _ s rfl rfl)⟩
  | ret => exact ⟨v, .inl rfl, completed_ret_comm ({ · with b := v }) s rfl rfl rfl⟩
  | _ => exact ⟨v, .inl rfl, rfl⟩

/-- The rows of R21 that write `A`. -/
def writesA : List Mnemonic :=
  [.LDA, .LDA_MEM, .ADD, .SUB, .MUL, .DIV, .AND, .OR, .XOR, .SHL, .SHR, .POP, .POPP]

/-- The rows of R21 that write `B`. -/
def writesB : List Mnemonic := [.LDB, .LDB_MEM]

theorem completed_a {i : Instr} (h : i.mnemonic ∉ writesA) (s : State) : (completed i s).a = s.a := by
  cases i with
  | lda | ldaMem | add | sub | mul | div | and | or | xor | shl | shr | pop | popp =>
    exact absurd (by simp [writesA, Instr.mnemonic]) h
  | sta | stb => exact storeByte_a _ _ s
  | ret => exact (apply_ite State.a _ _ _).trans (ite_self _)
  | _ => rfl

theorem completed_b {i : Instr} (h : i.mnemonic ∉ writesB) (s : State) : (completed i s).b = s.b := by
  cases i with
  | ldb | ldbMem => exact absurd (by simp [writesB, Instr.mnemonic]) h
  | sta | stb => exact storeByte_b _ _ s
  | ret => exact (apply_ite State.b _ _ _).trans (ite_self _)
  | _ => rfl

/-- Settles O22: a fault writes neither register and carries both along, and a completion follows the rows of R21. -/
theorem registerAccessTable : Obligations.RegisterAccessTable := by
  intro i s v
  refine ⟨effect i s, exec_eq_effect i s, fun hA => ?_, fun hB => ?_, fun hA => ?_, fun hB => ?_⟩
  · rcases effect_cases i s with ⟨f, -, he⟩ | ⟨-, he⟩ <;> rw [he]
    · rfl
    · exact completed_a hA s
  · rcases effect_cases i s with ⟨f, -, he⟩ | ⟨-, he⟩ <;> rw [he]
    · rfl
    · exact completed_b hB s
  · obtain ⟨x, hx, he⟩ := effect_pair (i := i) (s := s) (s' := { s with a := v })
      (fun t t' => ∃ x, (x = v ∨ x = t.a) ∧ t' = { t with a := x }) rfl rfl
      (fun f => ⟨v, .inl rfl, rfl⟩) (completed_withA hA s v)
    exact ⟨x, hx, (exec_eq_effect i _).trans (congrArg _ he)⟩
  · obtain ⟨x, hx, he⟩ := effect_pair (i := i) (s := s) (s' := { s with b := v })
      (fun t t' => ∃ x, (x = v ∨ x = t.b) ∧ t' = { t with b := x }) rfl rfl
      (fun f => ⟨v, .inl rfl, rfl⟩) (completed_withB hB s v)
    exact ⟨x, hx, (exec_eq_effect i _).trans (congrArg _ he)⟩

/-! ### The flags -/

/-- A completed instruction that is no conditional jump does not read `Z`. -/
theorem completed_withZ {i : Instr} (h : ∀ k, i ≠ .jz k ∧ i ≠ .jnz k) (s : State) (v : Bool) :
    ∃ x, completed i { s with z := v } = { completed i s with z := x } := by
  cases i with
  | sta k => exact ⟨v, congrArg advance (storeByte_comm ({ · with z := v }) _ _ s rfl rfl)⟩
  | stb k => exact ⟨v, congrArg advance (storeByte_comm ({ · with z := v }) _ _ s rfl rfl)⟩
  | jz k => exact absurd rfl (h k).1
  | jnz k => exact absurd rfl (h k).2
  | ret => exact ⟨v, completed_ret_comm ({ · with z := v }) s rfl rfl rfl⟩
  | _ => exact ⟨_, rfl⟩

/-- No completed instruction reads `C`. -/
theorem completed_withC (i : Instr) (s : State) (v : Bool) :
    ∃ x, completed i { s with c := v } = { completed i s with c := x } := by
  cases i with
  | sta k => exact ⟨v, congrArg advance (storeByte_comm ({ · with c := v }) _ _ s rfl rfl)⟩
  | stb k => exact ⟨v, congrArg advance (storeByte_comm ({ · with c := v }) _ _ s rfl rfl)⟩
  | ret => exact ⟨v, completed_ret_comm ({ · with c := v }) s rfl rfl rfl⟩
  | _ => exact ⟨_, rfl⟩

/-- A step does not read `C`. -/
theorem step_withC (s : State) (v : Bool) :
    ∃ t x, step s = .next t ∧ step { s with c := v } = .next { t with c := x } := by
  rcases step_cases s with ⟨hr, hs⟩ | ⟨hr, hw, hs⟩ | ⟨w, e, hr, hw, hd, hs⟩ | ⟨w, i, hr, hw, hd, hs⟩
  · exact ⟨s, v, hs, step_of_stopped hr⟩
  · exact ⟨exhaust s, v, hs, step_of_exhausted hr hw⟩
  · exact ⟨raise (decodeFault e) s, v, hs, step_of_illegal hr hw hd⟩
  · obtain ⟨x, he⟩ := effect_pair (i := i) (s := s) (s' := { s with c := v })
      (fun t t' => ∃ x, t' = { t with c := x }) rfl rfl (fun f => ⟨v, rfl⟩) (completed_withC i s v)
    refine ⟨effect i s, x, hs.trans (exec_eq_effect i s), ?_⟩
    rw [← he, ← exec_eq_effect]
    exact step_of_decoded hr hw hd

/-- Settles O23: `Z` by the instructions, `C` by induction on the number of steps. -/
theorem flagsReadOnlyByZeroJumps : Obligations.FlagsReadOnlyByZeroJumps := by
  refine ⟨fun i s v h => ?_, fun n => ?_⟩
  · obtain ⟨x, he⟩ := effect_pair (i := i) (s := s) (s' := { s with z := v })
      (fun t t' => ∃ x, t' = { t with z := x }) rfl rfl (fun f => ⟨v, rfl⟩) (completed_withZ h s v)
    exact ⟨effect i s, x, exec_eq_effect i s, (exec_eq_effect i _).trans (congrArg _ he)⟩
  · induction n with
    | zero => exact fun s v => ⟨s, v, rfl, rfl⟩
    | succ n ih =>
      intro s v
      obtain ⟨u, y, hu, hu'⟩ := step_withC s v
      obtain ⟨t, x, ht, ht'⟩ := ih u y
      exact ⟨t, x, (runSteps_succ n _ _ hu).trans ht, (runSteps_succ n _ _ hu').trans ht'⟩

/-! ### The logs -/

/-- The logs of a later state continue those of an earlier one. -/
def LogsGrow (s t : State) : Prop := s.outLog <+: t.outLog ∧ s.diagLog <+: t.diagLog

theorem LogsGrow.refl (s : State) : LogsGrow s s := ⟨List.prefix_rfl, List.prefix_rfl⟩

theorem LogsGrow.trans {s t u : State} (h : LogsGrow s t) (h' : LogsGrow t u) : LogsGrow s u :=
  ⟨h.1.trans h'.1, h.2.trans h'.2⟩

/-- A completed instruction only appends to the logs. -/
theorem completed_logsGrow (i : Instr) (s : State) : LogsGrow s (completed i s) := by
  cases i with
  | sta k | stb k =>
    simp only [LogsGrow, completed, advance_outLog, advance_diagLog, storeByte_outLog, storeByte_diagLog]
    split
    · exact ⟨List.prefix_append _ _, List.prefix_rfl⟩
    · exact ⟨List.prefix_rfl, List.prefix_rfl⟩
  | div => exact ⟨List.prefix_rfl, List.prefix_append _ _⟩
  | ret =>
    by_cases hsp : s.sp = 0
    · rw [completed_ret_empty hsp]
      exact ⟨List.prefix_rfl, List.prefix_append _ _⟩
    · rw [completed_ret_nonempty hsp]
      exact LogsGrow.refl s
  | _ => exact LogsGrow.refl s

/-- A step only appends to the logs: the stops and the faults write neither. -/
theorem step_logsGrow (s t : State) (h : step s = .next t) : LogsGrow s t :=
  step_rel (LogsGrow.refl s) (LogsGrow.refl s) (fun _ => LogsGrow.refl s) (completed_logsGrow · s) h

/-- No completed instruction reads the logs. -/
theorem completed_withLogs (i : Instr) (s : State) (out : List Byte) (ds : List Diagnostic) :
    ∃ out' ds', completed i { s with outLog := out, diagLog := ds } =
      { completed i s with outLog := out', diagLog := ds' } := by
  cases i with
  | sta k => exact ⟨_, _, congrArg advance (storeByte_withLogs _ _ out ds s)⟩
  | stb k => exact ⟨_, _, congrArg advance (storeByte_withLogs _ _ out ds s)⟩
  | ret => exact ⟨_, _, completed_ret_withLogs out ds s⟩
  | _ => exact ⟨_, _, rfl⟩

/-- Settles O28: growth by the steps of the run, independence by the instructions. -/
theorem logsAreAppendOnlyAndUnread : Obligations.LogsAreAppendOnlyAndUnread := by
  refine ⟨runSteps_rel LogsGrow.refl (fun _ _ _ => LogsGrow.trans) step_logsGrow, fun i s out ds => ?_⟩
  obtain ⟨out', ds', he⟩ := effect_pair (i := i) (s := s) (s' := { s with outLog := out, diagLog := ds })
    (fun t t' => ∃ out' ds', t' = { t with outLog := out', diagLog := ds' }) rfl rfl
    (fun f => ⟨out, ds, rfl⟩) (completed_withLogs i s out ds)
  exact ⟨effect i s, out', ds', exec_eq_effect i s, (exec_eq_effect i _).trans (congrArg _ he)⟩

end Sys2Proof.Machine
end

section
/-! PROOFS. The stack by the indices of the spec (spec/10_state.md R35 to R37): the list holds the top first, so index
`j` of the spec counts from its far end. -/

namespace Sys2Proof.Machine

/-- The entry on top has the index of the number of entries below it. -/
theorem stkAt_of_cons {s : State} {v : StackCell} {rest : List StackCell} (h : s.stk = v :: rest) :
    s.stkAt rest.length = some v := by
  simp [State.stkAt, h]

/-- The entries below the top keep their indices without it. -/
theorem stkAt_below {s t : State} {v : StackCell} (h : s.stk = v :: t.stk) {j : Nat} (hj : j < t.sp) :
    s.stkAt j = t.stkAt j := by
  have hlen : j < t.stk.reverse.length := by rwa [List.length_reverse]
  rw [State.stkAt, State.stkAt, h, List.reverse_cons, List.getElem?_append_left hlen]

/-- A cell on top is one more entry. -/
theorem sp_of_cons {s t : State} {v : StackCell} (h : s.stk = v :: t.stk) : s.sp = t.sp + 1 :=
  congrArg List.length h

/-- Settles O36, by the two cases of each primitive. -/
theorem stackPrimitivesByIndex : Obligations.StackPrimitivesByIndex := by
  intro v s
  refine ⟨stackPush_of_full v s, fun hroom => ?_, fun hsp => ?_, fun hsp => ?_⟩
  · have hstk : (setStk (v :: s.stk) s).stk = v :: s.stk := setStk_stk _ s
    exact ⟨setStk (v :: s.stk) s, stackPush_of_room v s hroom, rfl, sp_of_cons hstk, stkAt_of_cons hstk,
      fun j hj => stkAt_below hstk hj⟩
  · rcases stackPop_cases s with ⟨-, hp⟩ | ⟨x, rest, hs, -⟩
    · exact hp
    · simp [State.sp, hs] at hsp
  · rcases stackPop_cases s with ⟨hs, -⟩ | ⟨x, rest, hs, hp⟩
    · simp [State.sp, hs] at hsp
    · have hstk : s.stk = x :: (setStk rest s).stk := hs
      have hlast : s.sp - 1 = rest.length := by rw [sp_of_cons hstk]; rfl
      refine ⟨x, setStk rest s, hp, rfl, hlast.symm, ?_, fun j hj => (stkAt_below hstk hj).symm⟩
      rw [hlast]
      exact stkAt_of_cons hs

end Sys2Proof.Machine
end

section
/-! PROOFS. Data memory (spec/20_memory.md R60 to R68): the two access primitives, what a store leaves in every byte,
and that nothing else writes memory or the output log. -/

namespace Sys2Proof.Machine

/-! ### The access primitives -/

/-- What a store leaves in every byte of memory, the device included, whatever the size of the memory. -/
theorem storeByte_peek_eq (x : Nat) (v : Byte) (s : State) (y : Nat) :
    (storeByte x v s).mem.peek y =
      if x = 0xF1 then (if y = 0xF1 then 0 else if y = 0xF2 then s.mem.peek 0xF2 + 1 else s.mem.peek y)
      else (if y = x then v else s.mem.peek y) := by
  by_cases hx : x = 0xF1
  · subst hx
    have hne : y = 0xF2 → ¬ y = 0xF1 := by omega
    rw [if_pos rfl]
    exact (storeByte_peek_ioOut v s y).trans (ite_ite_comm _ _ _ _ hne)
  · rw [storeByte_mem_plain x v s hx, Memory.peek_poke, if_neg hx]

/-- Settles O32: outside the size both primitives refuse, and inside a write is `storeByte`. -/
theorem accessPrimitivesCheckBounds : Obligations.AccessPrimitivesCheckBounds := by
  intro size x v s
  refine ⟨fun hout => ⟨memRead_of_le size x s hout, memWrite_of_le size x v s hout⟩, fun hin =>
    ⟨memRead_of_lt size x s hin, (storeByte x v s).mem, ?_, storeByte_peek_eq x v s⟩⟩
  exact (memWrite_of_lt size x v s hin).trans (congrArg Except.ok (storeByte_eq x v s))

/-! ### The two store instructions -/

/-- `i` is a store of the byte `v` to the address `k` (R125, R126). -/
def Stores (i : Instr) (k v : Byte) (s : State) : Prop := (i = .sta k ∧ v = s.a) ∨ (i = .stb k ∧ v = s.b)

/-- Every instruction is a store or has another mnemonic. -/
theorem stores_or_notStore (i : Instr) (s : State) :
    (∃ k v, Stores i k v s) ∨ i.mnemonic ∉ [.STA, .STB] := by
  cases i with
  | sta k => exact .inl ⟨k, s.a, .inl ⟨rfl, rfl⟩⟩
  | stb k => exact .inl ⟨k, s.b, .inr ⟨rfl, rfl⟩⟩
  | _ => exact .inr (by simp [Instr.mnemonic])

/-- A store raises no fault: its address is a byte (R64). -/
theorem effect_of_stores {i : Instr} {k v : Byte} {s : State} (h : Stores i k v s) :
    effect i s = advance (storeByte k.toNat v s) := by
  obtain ⟨rfl, rfl⟩ | ⟨rfl, rfl⟩ := h <;> rfl

/-- Every instruction but the two stores leaves memory and the output log. -/
theorem effect_of_notStore {i : Instr} (h : i.mnemonic ∉ [.STA, .STB]) (s : State) :
    (effect i s).mem = s.mem ∧ (effect i s).outLog = s.outLog := by
  rcases effect_cases i s with ⟨f, -, he⟩ | ⟨-, he⟩ <;> rw [he]
  · exact ⟨rfl, rfl⟩
  · cases i with
    | sta | stb => exact absurd (by simp [Instr.mnemonic]) h
    | ret =>
      exact ⟨(apply_ite State.mem _ _ _).trans (ite_self _), (apply_ite State.outLog _ _ _).trans (ite_self _)⟩
    | _ => exact ⟨rfl, rfl⟩

/-- Byte `y` after a store of `v` to `k`. -/
theorem effect_peek_of_stores {i : Instr} {k v : Byte} {s : State} (h : Stores i k v s) (y : Nat) :
    (effect i s).mem.peek y =
      if k = 0xF1 then (if y = 0xF1 then 0 else if y = 0xF2 then s.mem.peek 0xF2 + 1 else s.mem.peek y)
      else (if y = k.toNat then v else s.mem.peek y) := by
  have hk : k.toNat = 0xF1 ↔ k = 0xF1 := byte_toNat_inj k 0xF1
  rw [effect_of_stores h, advance_mem, storeByte_peek_eq]
  simp only [hk]

/-- Settles O26: a store writes as `effect_peek_of_stores` says, and no other instruction writes memory. -/
theorem memoryWrittenOnlyByStores : Obligations.MemoryWrittenOnlyByStores := by
  intro i s
  refine ⟨effect i s, exec_eq_effect i s, fun h => (effect_of_notStore h s).1, fun k hi => ?_⟩
  have hst : Stores i k (if i = .sta k then s.a else s.b) s := by
    rcases hi with rfl | rfl
    · exact .inl ⟨rfl, if_pos rfl⟩
    · exact .inr ⟨rfl, if_neg nofun⟩
  refine ⟨fun x hx hcnt => ?_, fun hk => ?_, fun hk => ?_⟩
  · rw [effect_peek_of_stores hst]
    by_cases hk : k = 0xF1
    · have hbuf : x ≠ 0xF1 := fun e => hx (e.trans (congrArg BitVec.toNat hk).symm)
      rw [if_pos hk, if_neg hbuf, if_neg (hcnt hk)]
    · rw [if_neg hk, if_neg hx]
  · rw [effect_peek_of_stores hst, if_neg hk, if_pos rfl]
  · rw [effect_peek_of_stores hst, effect_peek_of_stores hst, if_pos hk, if_pos hk]
    exact ⟨rfl, rfl⟩

/-- Settles O27, by the instructions: `storeByte`, DIV and RET append, a fault and the rest do not. -/
theorem logTable : Obligations.LogTable := by
  intro i s
  refine ⟨effect i s, exec_eq_effect i s, ?_⟩
  rcases effect_cases i s with ⟨f, hf, he⟩ | ⟨-, he⟩ <;> rw [he]
  · obtain ⟨rfl | rfl | rfl | ⟨k, rfl⟩, -⟩ := faultOf_eq_some hf <;>
      exact ⟨(List.append_nil _).symm, (List.append_nil _).symm⟩
  · cases i with
    | sta k | stb k =>
      have hk : k.toNat = Config.ioOut ↔ k = 0xF1 := byte_toNat_inj k 0xF1
      simp only [completed, advance_outLog, advance_diagLog, storeByte_outLog, storeByte_diagLog, hk]
      exact ⟨by split <;> simp, (List.append_nil _).symm⟩
    | div => exact ⟨(List.append_nil _).symm, rfl⟩
    | ret =>
      by_cases hsp : s.sp = 0
      · rw [completed_ret_empty hsp]
        exact ⟨(List.append_nil _).symm, congrArg (s.diagLog ++ ·) (if_pos hsp).symm⟩
      · rw [completed_ret_nonempty hsp]
        exact ⟨(List.append_nil _).symm,
          ((congrArg (s.diagLog ++ ·) (if_neg hsp)).trans (List.append_nil _)).symm⟩
    | _ => exact ⟨(List.append_nil _).symm, (List.append_nil _).symm⟩

end Sys2Proof.Machine
end

section
/-! PROOFS. Data memory along a run (spec/20_memory.md R68, R69, R73): the latest value written to a byte, the output
buffer and the output counter. -/

namespace Sys2Proof.Machine

/-! ### What a step writes in memory -/

theorem byteWrittenNext_of_stores {s : State} {w : InstrWord} {i : Instr} {k v : Byte} (hr : s.running = true)
    (hw : fetch s = some w) (hd : decode w = .ok i) (h : Stores i k v s) (x : Byte) :
    byteWrittenNext x s = byteStored k v s x := by
  obtain ⟨rfl, rfl⟩ | ⟨rfl, rfl⟩ := h <;> exact byteWrittenNext_of_decoded x s w _ hr hw hd

theorem byteWrittenNext_of_notStore {s : State} {w : InstrWord} {i : Instr} (hr : s.running = true)
    (hw : fetch s = some w) (hd : decode w = .ok i) (h : i.mnemonic ∉ [.STA, .STB]) (x : Byte) :
    byteWrittenNext x s = none := by
  have hi := byteWrittenNext_of_decoded x s w i hr hw hd
  cases i with
  | sta | stb => exact absurd (by simp [Instr.mnemonic]) h
  | _ => exact hi

/-- Everything a step can do to memory and the output log: run a store, or leave both. -/
theorem step_store_cases {s t : State} (h : step s = .next t) :
    (∃ w i k v, fetch s = some w ∧ decode w = .ok i ∧ Stores i k v s ∧ t = effect i s ∧
      ∀ x, byteWrittenNext x s = byteStored k v s x) ∨
    (t.mem = s.mem ∧ t.outLog = s.outLog ∧ ∀ x, byteWrittenNext x s = none) := by
  rcases step_cases s with ⟨hr, hs⟩ | ⟨hr, hw, hs⟩ | ⟨w, e, hr, hw, hd, hs⟩ | ⟨w, i, hr, hw, hd, hs⟩
  · cases hs.symm.trans h
    exact .inr ⟨rfl, rfl, fun x => byteWrittenNext_stopped x s hr⟩
  · cases hs.symm.trans h
    exact .inr ⟨rfl, rfl, fun x => by simp [byteWrittenNext, hw]⟩
  · cases hs.symm.trans h
    exact .inr ⟨rfl, rfl, fun x => by simp [byteWrittenNext, hw, hd]⟩
  · cases (hs.trans (exec_eq_effect i s)).symm.trans h
    rcases stores_or_notStore i s with ⟨k, v, hst⟩ | hno
    · exact .inl ⟨w, i, k, v, hw, hd, hst, rfl, byteWrittenNext_of_stores hr hw hd hst⟩
    · obtain ⟨hmem, hout⟩ := effect_of_notStore hno s
      exact .inr ⟨hmem, hout, byteWrittenNext_of_notStore hr hw hd hno⟩

/-- `byteWrittenNext` is what a step writes: the byte it names, or the old one. -/
theorem step_peek {s t : State} (h : step s = .next t) (x : Byte) :
    t.mem.peek x.toNat = (byteWrittenNext x s).getD (s.mem.peek x.toNat) := by
  rcases step_store_cases h with ⟨w, i, k, v, -, -, hst, rfl, hx⟩ | ⟨hmem, -, hx⟩
  · rw [hx, effect_of_stores hst, advance_mem, storeByte_peek]
  · rw [hx, hmem, Option.getD_none]

/-! ### The latest value of a byte -/

theorem latestValue_zero (x : Byte) (s : State) (v : Byte) : latestValue x 0 s v ↔ s.mem.peek x.toNat = v := by
  simp [latestValue]

/-- The latest value after one more step: the one that step writes, or the latest value before it. -/
theorem latestValue_succ {n : Nat} {s u : State} (hu : runSteps n s = .next u) (x v : Byte) :
    latestValue x (n + 1) s v ↔
      byteWrittenNext x u = some v ∨ (byteWrittenNext x u = none ∧ latestValue x n s v) := by
  have hlast : (∀ q, runSteps n s = .next q → byteWrittenNext x q = none) ↔ byteWrittenNext x u = none := by
    simp [hu]
  constructor
  · rintro (⟨m, hm, q, hq, hv, hnone⟩ | ⟨hv, hnone⟩)
    · rcases Nat.lt_succ_iff_lt_or_eq.1 hm with hm | rfl
      · exact .inr ⟨hlast.1 (hnone n hm n.lt_succ_self),
          .inl ⟨m, hm, q, hq, hv, fun j hmj hj => hnone j hmj (hj.trans n.lt_succ_self)⟩⟩
      · cases hq.symm.trans hu
        exact .inl hv
    · obtain ⟨hbefore, hn⟩ := Nat.forall_lt_succ_right.1 hnone
      exact .inr ⟨hlast.1 hn, .inr ⟨hv, hbefore⟩⟩
  · rintro (hv | ⟨hn, ⟨m, hm, q, hq, hv, hnone⟩ | ⟨hv, hnone⟩⟩)
    · exact .inl ⟨n, n.lt_succ_self, u, hu, hv, fun j hj hj' => by omega⟩
    · refine .inl ⟨m, hm.trans n.lt_succ_self, q, hq, hv, fun j hmj hj => ?_⟩
      rcases Nat.lt_succ_iff_lt_or_eq.1 hj with hj | rfl
      · exact hnone j hmj hj
      · exact hlast.2 hn
    · exact .inr ⟨hv, Nat.forall_lt_succ_right.2 ⟨hnone, hlast.2 hn⟩⟩

/-- The latest value of a byte is what memory holds there when the run has come so far (R73 b). -/
theorem latestValue_iff_peek {n : Nat} {s t : State} (ht : runSteps n s = .next t) (x v : Byte) :
    latestValue x n s v ↔ t.mem.peek x.toNat = v := by
  induction n generalizing t with
  | zero =>
    cases ht
    exact latestValue_zero x s v
  | succ n ih =>
    obtain ⟨u, hu⟩ := exists_runSteps n s
    have hstep : step u = .next t := (runSteps_last n s u hu).symm.trans ht
    rw [latestValue_succ hu, ih hu, step_peek hstep]
    cases byteWrittenNext x u <;> simp

/-! ### Loads -/

/-- LDA_MEM, as one record update (R123). -/
theorem exec_ldaMem (k : Byte) (s : State) : exec (.ldaMem k) s = .next { s with
    a := s.mem.peek k.toNat, z := decide (s.mem.peek k.toNat = 0), pc := s.pc + 1 } :=
  exec_eq_effect (.ldaMem k) s

/-- LDB_MEM, as one record update (R124). -/
theorem exec_ldbMem (k : Byte) (s : State) :
    exec (.ldbMem k) s = .next { s with b := s.mem.peek k.toNat, pc := s.pc + 1 } :=
  exec_eq_effect (.ldbMem k) s

/-- A load of a byte that holds `v` (R123, R124). -/
theorem exec_load_of_peek {k v : Byte} {s : State} (h : s.mem.peek k.toNat = v) :
    exec (.ldaMem k) s = .next { s with a := v, z := decide (v = 0), pc := s.pc + 1 } ∧
    exec (.ldbMem k) s = .next { s with b := v, pc := s.pc + 1 } := by
  subst h
  exact ⟨exec_ldaMem k s, exec_ldbMem k s⟩

/-- Settles O33: a load reads memory, which holds the latest value of every byte. -/
theorem loadReturnsTheLatestStore : Obligations.LoadReturnsTheLatestStore := by
  refine ⟨fun k n s => ?_, fun k v w n s hv hw => ?_, fun k v i s hk hst => ?_⟩
  · obtain ⟨t, ht⟩ := exists_runSteps n s
    exact ⟨t, t.mem.peek k.toNat, ht, (latestValue_iff_peek ht k _).2 rfl, exec_load_of_peek rfl⟩
  · obtain ⟨t, ht⟩ := exists_runSteps n s
    exact ((latestValue_iff_peek ht k v).1 hv).symm.trans ((latestValue_iff_peek ht k w).1 hw)
  · have hread : (effect i s).mem.peek k.toNat = v := by
      rw [effect_peek_of_stores hst, if_neg hk, if_pos rfl]
    exact ⟨effect i s, exec_eq_effect i s, (exec_load_of_peek hread).symm⟩

/-! ### The output device -/

/-- A step keeps the output buffer 0: the device clears it after every store to it (R68 a). -/
theorem step_buffer_zero (s t : State) (h : step s = .next t) (h0 : s.mem.peek 0xF1 = 0) : t.mem.peek 0xF1 = 0 := by
  rcases step_store_cases h with ⟨w, i, k, v, -, -, hst, rfl, -⟩ | ⟨hmem, -, -⟩
  · rw [effect_peek_of_stores hst]
    by_cases hk : k = 0xF1
    · rw [if_pos hk, if_pos rfl]
    · have hne : 0xF1 ≠ k.toNat := fun e => hk ((byte_toNat_inj k 0xF1).1 e.symm)
      rw [if_neg hk, if_neg hne, h0]
  · rw [hmem, h0]

/-- Settles O34, by the steps of the run. -/
theorem outputBufferStaysZero : Obligations.OutputBufferStaysZero := by
  intro s h0
  refine ⟨fun n => ?_, (exec_load_of_peek (k := 0xF1) h0).1⟩
  obtain ⟨t, ht, hkeep⟩ := runSteps_rel (R := fun s t => s.mem.peek 0xF1 = 0 → t.mem.peek 0xF1 = 0)
    (fun _ => id) (fun _ _ _ hst htu => htu ∘ hst) step_buffer_zero n s
  exact ⟨t, ht, hkeep h0⟩

/-- The counter at 0xF2 is the number of outputs modulo 256 (R69). -/
def CounterInStep (s : State) : Prop := (s.mem.peek 0xF2).toNat = s.outLog.length % 256

/-- A store to any address but the counter's own keeps the counter in step. -/
theorem effect_counterInStep {i : Instr} {k v : Byte} {s : State} (hst : Stores i k v s) (hk : k ≠ 0xF2)
    (h : CounterInStep s) : CounterInStep (effect i s) := by
  have hout : k.toNat = Config.ioOut ↔ k = 0xF1 := byte_toNat_inj k 0xF1
  have hcnt : 0xF2 ≠ k.toNat := fun e => hk ((byte_toNat_inj k 0xF2).1 e.symm)
  have hlog : (effect i s).outLog = if k = 0xF1 then s.outLog ++ [v] else s.outLog := by
    rw [effect_of_stores hst, advance_outLog, storeByte_outLog]
    simp only [hout]
  unfold CounterInStep at h ⊢
  rw [effect_peek_of_stores hst, hlog]
  by_cases hk1 : k = 0xF1
  · have hcount : (s.mem.peek 0xF2 + 1).toNat = ((s.mem.peek 0xF2).toNat + 1) % 256 := BitVec.toNat_add _ _
    simp only [if_pos hk1, List.length_append, List.length_singleton]
    show (s.mem.peek 0xF2 + 1).toNat = _
    omega
  · simpa only [if_neg hk1, if_neg hcnt] using h

/-- Settles O35: a step that is no store to 0xF2 keeps the counter in step, and after a store to it the device counts
on from what it holds. -/
theorem outputCounterCountsOutputs : Obligations.OutputCounterCountsOutputs := by
  refine ⟨fun s h hno => ?_, fun s => ?_⟩
  · obtain ⟨t, ht⟩ := exists_step s
    refine ⟨t, ht, ?_⟩
    rcases step_store_cases ht with ⟨w, i, k, v, hw, hd, hst, rfl, -⟩ | ⟨hmem, hout, -⟩
    · have hk : k ≠ 0xF2 := by
        rintro rfl
        obtain ⟨hsta, hstb⟩ := hno w hw
        obtain ⟨rfl, -⟩ | ⟨rfl, -⟩ := hst
        · exact hsta hd
        · exact hstb hd
      exact effect_counterInStep hst hk h
    · rw [hmem, hout]
      exact h
  · have hset : (effect (.sta 0xF2) s).mem.peek 0xF2 = s.a :=
      effect_peek_of_stores (i := .sta 0xF2) (.inl ⟨rfl, rfl⟩) 0xF2
    have hnext (t : State) : (effect (.stb 0xF1) t).mem.peek 0xF2 = t.mem.peek 0xF2 + 1 :=
      effect_peek_of_stores (i := .stb 0xF1) (.inr ⟨rfl, rfl⟩) 0xF2
    refine ⟨_, _, exec_eq_effect _ s, hset, rfl, exec_eq_effect _ _, ?_⟩
    rw [hnext, hset]
    exact BitVec.toNat_add _ _

end Sys2Proof.Machine
end

section
/-! PROOFS. What data memory is kept apart from: the program (spec/20_memory.md R75) and the stack (R60). -/

namespace Sys2Proof.Machine

/-! ### The program -/

/-- A completed instruction leaves the program and `STACK_DEPTH`. -/
theorem completed_program (i : Instr) (s : State) :
    (completed i s).imem = s.imem ∧ (completed i s).stackDepth = s.stackDepth := by
  cases i with
  | sta | stb => exact ⟨storeByte_imem _ _ s, storeByte_stackDepth _ _ s⟩
  | ret =>
    exact ⟨(apply_ite State.imem _ _ _).trans (ite_self _), (apply_ite State.stackDepth _ _ _).trans (ite_self _)⟩
  | _ => exact ⟨rfl, rfl⟩

/-- Settles O24, by the steps of the run; the fetch reads the program and `pc` only. -/
theorem programIsOutOfReach : Obligations.ProgramIsOutOfReach := by
  refine ⟨runSteps_rel (R := fun s t => t.imem = s.imem ∧ t.stackDepth = s.stackDepth) (fun s => ⟨rfl, rfl⟩)
    (fun s t u hst htu => ⟨htu.1.trans hst.1, htu.2.trans hst.2⟩)
    (fun s t h => step_rel (R := fun s t => t.imem = s.imem ∧ t.stackDepth = s.stackDepth)
      ⟨rfl, rfl⟩ ⟨rfl, rfl⟩ (fun _ => ⟨rfl, rfl⟩) (completed_program · s) h), fun s m => rfl⟩

/-! ### The stack -/

/-- The mnemonics that use the stack (R190). -/
def usesStack : List Mnemonic := [.PUSH, .POP, .POPP, .CALL, .RET]

/-- Only the five stack instructions reach the stack. -/
theorem effect_stk {i : Instr} (h : i.mnemonic ∉ usesStack) (s : State) : (effect i s).stk = s.stk := by
  rcases effect_cases i s with ⟨f, -, he⟩ | ⟨-, he⟩ <;> rw [he]
  · rfl
  · cases i with
    | push | pop | popp | call | ret => exact absurd (by simp [usesStack, Instr.mnemonic]) h
    | sta | stb => exact storeByte_stk _ _ s
    | _ => rfl

/-- A stack instruction that raises records its fault with the information 0 and does nothing else (R212). -/
theorem raise_frame {i : Instr} {s : State} {f : RuntimeFault} (hf : faultOf i s = some f) :
    raise f s = { s with
      running := false, stopCause := .fault, faultCode := (raise f s).faultCode, faultInfo := 0 } := by
  obtain ⟨-, rfl | rfl⟩ := faultOf_eq_some hf <;> rfl

/-- A completed stack instruction writes the stack and `pc`, and POP and POPP `A` and `Z`. -/
theorem completed_stackFrame {i : Instr} {s : State} (h : i.mnemonic ∈ usesStack) (hret : ¬(i = .ret ∧ s.sp = 0)) :
    completed i s = { s with
      a := if i.mnemonic ∈ [.POP, .POPP] then (completed i s).a else s.a
      z := if i.mnemonic ∈ [.POP, .POPP] then (completed i s).z else s.z
      stk := (completed i s).stk, pc := (completed i s).pc } := by
  cases i with
  | push | pop | popp | call => rfl
  | ret =>
    rw [completed_ret_nonempty fun hsp => hret ⟨rfl, hsp⟩]
    rfl
  | _ => simp [usesStack, Instr.mnemonic] at h

/-- Settles O25, by the three ways a stack instruction ends: its fault, RET on an empty stack, its completion. -/
theorem stackAndMemoryAreSeparate : Obligations.StackAndMemoryAreSeparate := by
  intro i s
  refine ⟨effect i s, exec_eq_effect i s, fun h => effect_stk h s, fun h => ?_⟩
  rcases effect_cases i s with ⟨f, hf, he⟩ | ⟨hf, he⟩ <;> rw [he]
  · rw [if_pos (by simp [hf])]
    exact ⟨rfl, rfl, rfl, rfl, raise_frame hf⟩
  · rw [if_neg (not_not_intro hf)]
    by_cases hret : i = .ret ∧ s.sp = 0
    · rw [if_pos hret]
      obtain ⟨rfl, hsp⟩ := hret
      rw [completed_ret_empty hsp]
      exact ⟨rfl, rfl, rfl, rfl, rfl⟩
    · rw [if_neg hret]
      have hframe := completed_stackFrame h hret
      exact ⟨(congrArg State.mem hframe :), (congrArg State.c hframe :), (congrArg State.b hframe :),
        (congrArg State.outLog hframe :), hframe⟩

end Sys2Proof.Machine
end

section
/-! PROOFS. The encoding (spec/30_encoding.md R91 to R99): the word and its two fields, the opcode map and its masks,
the encoder of the abstract pair, the serialised form, and the words that name no instruction. -/

namespace Sys2Proof.Machine

open Sys2Proof.Laws

/-! ### Mnemonics and instructions -/

/-- An instruction of format N has no operand, one of another format the byte it is given (R92, R94). -/
theorem instr_operand (k : Byte) (m : Mnemonic) :
    (m.instr k).operand = if m.format = .N then none else some k := by
  cases m <;> rfl

/-- A format-N mnemonic ignores the byte (R94). -/
theorem instr_of_formatN {m : Mnemonic} (h : m.format = .N) (k l : Byte) : m.instr k = m.instr l := by
  cases m with
  | LDA | LDB | LDA_MEM | LDB_MEM | STA | STB | JMP | JZ | JNZ | CALL => cases h
  | _ => rfl

/-- An instruction is its mnemonic with its operand byte. -/
theorem instr_mnemonic_operand (i : Instr) : i.mnemonic.instr (i.operand.getD 0x00) = i := by
  cases i <;> rfl

/-- The opcode map ends at 0x19 (R95). -/
theorem opcode_le (m : Mnemonic) : m.opcode.toNat ≤ 0x19 := by
  cases m <;> decide

/-! ### Decoding a word by its two fields -/

theorem decode_of_opField {w : InstrWord} {m : Mnemonic} (h : opField w = m.opcode) :
    decode w = .ok (m.instr (kField w)) := by
  rw [← decode_wordOf_opcode, ← h, wordOf_fields]

/-- An instruction that a word decodes to has the word's two fields. -/
theorem fields_of_decode {w : InstrWord} {i : Instr} (h : decode w = .ok i) :
    opField w = i.mnemonic.opcode ∧ i = i.mnemonic.instr (kField w) := by
  rcases decode_cases w with ⟨m, hm, hd⟩ | ⟨-, hd⟩ <;> cases hd.symm.trans h
  rw [instr_mnemonic]
  exact ⟨hm, rfl⟩

/-- The decoder refuses exactly the opcode bytes above 0x19 (R96). -/
theorem decode_refuses_iff (w : InstrWord) :
    decode w = .error (.unknownInstruction (opField w)) ↔ 0x1A ≤ (opField w).toNat := by
  rcases decode_cases w with ⟨m, hm, hd⟩ | ⟨hop, hd⟩
  · have hle := opcode_le m
    simp only [hd, hm, reduceCtorEq, false_iff]
    omega
  · exact iff_of_true hd hop

/-- The decoder accepts exactly the opcode bytes up to 0x19 (R95). -/
theorem decode_accepts_iff (w : InstrWord) : (∃ i, decode w = .ok i) ↔ (opField w).toNat ≤ 0x19 := by
  rcases decode_cases w with ⟨m, hm, hd⟩ | ⟨hop, hd⟩
  · exact iff_of_true ⟨_, hd⟩ (hm ▸ opcode_le m)
  · simp only [hd, reduceCtorEq, exists_false, false_iff]
    omega

/-! ### Decode and encode -/

theorem decode_encode (i : Instr) : decode (encode i) = .ok i :=
  (decode_wordOf_opcode _ _).trans (congrArg _ (instr_mnemonic_operand i))

/-- Settles O1: a word is its two fields, and outside format N the operand byte is in the instruction. -/
theorem decodeEncodeAgree : Obligations.DecodeEncodeAgree := by
  refine ⟨fun i => ⟨instr_wf i, decode_encode i⟩, fun w i h => ?_⟩
  obtain ⟨hop, hi⟩ := fields_of_decode h
  refine ⟨(opField_wordOf _ _).trans hop.symm, fun hN => ?_⟩
  have hk : i.operand = some (kField w) :=
    (congrArg Instr.operand hi).trans ((instr_operand _ _).trans (if_neg hN))
  calc encode i = wordOf (opField w) (kField w) := by rw [encode, hk, hop, Option.getD_some]
    _ = w := wordOf_fields w

/-- Settles O4: the instruction does not depend on the byte, and its canonical word has the byte 0x00. -/
theorem formatNOperandByteIgnored : Obligations.FormatNOperandByteIgnored := by
  intro m hN
  refine ⟨m.instr 0x00, fun k => ?_, instr_mnemonic _ _, ?_⟩
  · rw [decode_wordOf_opcode, instr_of_formatN hN k 0x00]
  · rw [encode, kField_wordOf, instr_operand, if_pos hN, Option.getD_none]

/-- Settles O5: each word is written as its opcode byte and its operand byte. -/
theorem writtenWordsDecode : Obligations.WrittenWordsDecode :=
  ⟨decode_wordOf_opcode .LDA 42, decode_wordOf_opcode .STA 16, decode_wordOf_opcode .LDB_MEM 17,
    decode_wordOf_opcode .ADD 0x00, decode_wordOf_opcode .SHL 0x00, decode_wordOf_opcode .CMP 0x00,
    decode_wordOf_opcode .JZ 13, decode_wordOf_opcode .JMP 2, decode_wordOf_opcode .CALL 1,
    decode_wordOf_opcode .PUSH 0x00, decode_wordOf_opcode .POPP 0x00, decode_wordOf_opcode .RET 0x00,
    decode_wordOf_opcode .HALT 0xFF⟩

/-! ### The match and mask columns of the opcode map -/

/-- The canonical word as a number (R94, R95). -/
theorem encode_instr_toNat (m : Mnemonic) (k : Byte) :
    (encode (m.instr k)).toNat = m.opcode.toNat * 256 + if m.format = .N then 0 else k.toNat := by
  rw [encode, wordOf_toNat, instr_mnemonic, instr_operand]
  split <;> rfl

/-- The mask 0xFF00 leaves the opcode byte in its place and clears the operand byte. -/
theorem and_mask_eq (w : InstrWord) : w &&& 0xFF00 = wordOf (opField w) 0#8 := by
  calc w &&& 0xFF00 = wordOf (opField w) (kField w) &&& wordOf (BitVec.allOnes 8) 0#8 := by rw [wordOf_fields]; rfl
    _ = wordOf (opField w &&& BitVec.allOnes 8) (kField w &&& 0#8) := BitVec.and_append
    _ = wordOf (opField w) 0#8 := by rw [BitVec.and_allOnes, BitVec.and_zero]

/-- A word matches a row of the map when its opcode byte is the row's. -/
theorem and_mask_eq_iff (w : InstrWord) (op : Byte) :
    w &&& 0xFF00 = BitVec.ofNat 16 (op.toNat * 256) ↔ opField w = op := by
  have hrow : BitVec.ofNat 16 (op.toNat * 256) = wordOf op 0#8 := by
    apply BitVec.eq_of_toNat_eq
    rw [wordOf_toNat, BitVec.toNat_ofNat, BitVec.toNat_zero]
    omega
  rw [and_mask_eq, hrow]
  refine ⟨fun h => ?_, fun h => h ▸ rfl⟩
  simpa using congrArg opField h

/-- Settles O2: the table's opcodes and formats are the model's, and for those a word matches by its opcode byte. -/
theorem opcodeMapMatchesEveryWord : Obligations.OpcodeMapMatchesEveryWord := by
  refine ⟨fun row hrow => ?_, fun w => opField_toNat w ▸ decode_accepts_iff w⟩
  obtain ⟨hop, hformat⟩ : row.1 = row.2.1.opcode.toNat ∧ row.2.1.format = row.2.2 := by
    revert row
    decide
  rw [hop, ← hformat]
  refine ⟨rfl, encode_instr_toNat row.2.1, fun w => ?_⟩
  rw [ne_eq, and_mask_eq_iff]
  refine ⟨decode_of_opField, fun hne i hd hi => hne ?_⟩
  rw [← hi]
  exact (fields_of_decode hd).1

/-! ### The encoder of the abstract pair -/

/-- The operand byte of a pair: its operand modulo 256, and 0x00 where it has none (R94, R98 b). -/
def pairByte (p : Pair) : Byte := (p.operand.map (BitVec.ofNat 8)).getD 0x00

/-- The pair encoder gives a word for the well-formed pairs only, and which word it gives. -/
theorem encodePair_eq_ok_iff (p : Pair) (w : InstrWord) :
    encodePair p = .ok w ↔ p.wf = true ∧ wordOf p.mnemonic.opcode (pairByte p) = w := by
  obtain ⟨m, operand⟩ := p
  rw [Pair.wf, Bool.and_eq_true]
  cases hf : m.format with
  | N | I => cases operand <;> simp [encodePair, Pair.operandPresenceOk, Pair.operandRangeOk, pairByte, hf]
  | M | T =>
    cases operand with
    | none => simp [encodePair, Pair.operandPresenceOk, hf]
    | some n =>
      by_cases hn : n < 256 <;>
        simp [encodePair, Pair.operandPresenceOk, Pair.operandRangeOk, pairByte, hf, hn]

/-- A well-formed pair has its byte as the operand of its instruction. -/
theorem operand_of_wf {p : Pair} (h : p.wf = true) :
    (p.mnemonic.instr (pairByte p)).operand = p.operand.map (BitVec.ofNat 8) := by
  have hpresence : p.operandPresenceOk = true := (Bool.and_eq_true_iff.1 h).1
  obtain ⟨m, operand⟩ := p
  rw [instr_operand]
  cases hf : m.format with
  | N =>
    have habsent : operand = none := by simpa [Pair.operandPresenceOk, hf] using hpresence
    simp [habsent]
  | _ =>
    obtain ⟨n, rfl⟩ : ∃ n, operand = some n := by
      simpa [Pair.operandPresenceOk, hf, Option.isSome_iff_exists] using hpresence
    simp [pairByte]

/-- Settles O6, by what the pair encoder accepts and gives. -/
theorem pairEncoderMasksOrRefuses : Obligations.PairEncoderMasksOrRefuses := by
  refine ⟨fun p => ?_, fun m n hI => ?_, fun m n hMT hn => ?_, fun p w h => ?_⟩
  · simp [encodePair_eq_ok_iff]
  · have hmask : BitVec.ofNat 8 (n % 256) = BitVec.ofNat 8 n := by
      apply BitVec.eq_of_toNat_eq
      simp
    simp [encodePair, hI, hmask]
  · have hwide : ¬n < 256 := Nat.not_lt.2 hn
    rcases hMT with hM | hT <;> simp [encodePair, *]
  · obtain ⟨hwf, rfl⟩ := (encodePair_eq_ok_iff p w).1 h
    exact ⟨p.mnemonic.instr (pairByte p), decode_wordOf_opcode _ _, instr_mnemonic _ _, operand_of_wf hwf⟩

/-! ### The serialised form -/

/-- Slot `i` is bytes `2i` and `2i + 1` of the stream (R99). -/
theorem serialise_getElem? (p : List InstrWord) (i : Nat) :
    (serialise p)[2 * i]? = (p[i]?).map opField ∧ (serialise p)[2 * i + 1]? = (p[i]?).map kField := by
  induction p generalizing i with
  | nil => exact ⟨rfl, rfl⟩
  | cons w p ih =>
    cases i with
    | zero => exact ⟨rfl, rfl⟩
    | succ i => exact ih i

theorem deserialise_serialise (p : List InstrWord) : deserialise (serialise p) = some p := by
  induction p with
  | nil => rfl
  | cons w p ih => rw [serialise, deserialise, ih, Option.map_some, wordOf_fields]

/-- A stream is no program exactly when its length is odd (R99). -/
theorem deserialise_eq_none_iff (bytes : List Byte) : deserialise bytes = none ↔ bytes.length % 2 = 1 := by
  induction bytes using deserialise.induct with
  | case1 => decide
  | case2 b => exact iff_of_true rfl rfl
  | case3 op k rest ih =>
    rw [deserialise, Option.map_eq_none_iff, ih, List.length_cons, List.length_cons]
    omega

/-- Settles O7: the three laws of the stream. -/
theorem serialisedFormReadsBack : Obligations.SerialisedFormReadsBack :=
  ⟨serialise_getElem?, deserialise_serialise, deserialise_eq_none_iff⟩

/-! ### Illegal words -/

/-- No completed instruction reads the program. -/
theorem completed_withImem (i : Instr) (s : State) (q : List InstrWord) :
    completed i { s with imem := q } = { completed i s with imem := q } := by
  cases i with
  | sta k => exact congrArg advance (storeByte_comm ({ · with imem := q }) _ _ s rfl rfl)
  | stb k => exact congrArg advance (storeByte_comm ({ · with imem := q }) _ _ s rfl rfl)
  | ret => exact completed_ret_comm ({ · with imem := q }) s rfl rfl rfl
  | _ => rfl

/-- A step reads the program in the slot of `pc` only (R40). -/
theorem step_withImem (s : State) (q : List InstrWord) (h : q[s.pc.toNat]? = s.imem[s.pc.toNat]?) :
    ∃ t, step s = .next t ∧ step { s with imem := q } = .next { t with imem := q } := by
  have hfetch : fetch { s with imem := q } = fetch s := h
  rcases step_cases s with ⟨hr, hs⟩ | ⟨hr, hw, hs⟩ | ⟨w, e, hr, hw, hd, hs⟩ | ⟨w, i, hr, hw, hd, hs⟩
  · exact ⟨s, hs, step_of_stopped hr⟩
  · exact ⟨exhaust s, hs, step_of_exhausted hr (hfetch.trans hw)⟩
  · exact ⟨raise (decodeFault e) s, hs, step_of_illegal hr (hfetch.trans hw) hd⟩
  · have he : effect i { s with imem := q } = { effect i s with imem := q } :=
      effect_pair (i := i) (s := s) (s' := { s with imem := q }) (fun t t' => t' = { t with imem := q }) rfl rfl
        (fun f => rfl) (completed_withImem i s q)
    refine ⟨effect i s, hs.trans (exec_eq_effect i s), ?_⟩
    rw [← he, ← exec_eq_effect]
    exact step_of_decoded hr (hfetch.trans hw) hd

/-- What a fetched illegal word raises (R96, R212, R215). -/
theorem raise_unknownInstruction (op : Byte) (s : State) :
    raise (.unknownInstruction op) s = { s with
      running := false, stopCause := .fault, faultCode := .unknownInstruction
      faultInfo := BitVec.ofNat 9 op.toNat } := by
  rw [← target_eq]
  rfl

/-- Settles O3, by what the decoder refuses and what a step reads. -/
theorem illegalWordsFaultOnlyWhenFetched : Obligations.IllegalWordsFaultOnlyWhenFetched := by
  refine ⟨decode_refuses_iff, fun s w hr hw hop => ?_, fun s q _ => step_withImem s q⟩
  rw [← raise_unknownInstruction]
  exact step_of_illegal hr hw ((decode_refuses_iff w).2 hop)

end Sys2Proof.Machine
end

section
/-! PROOFS. NOP, loads and stores (spec/40_load_store.md R120 to R126): each word, and what its instruction leaves as
one record update of the state before it, so that the fields the update does not name are the frame. -/

namespace Sys2Proof.Machine

open Sys2Proof.Laws

/-! ### NOP and the immediate loads -/

/-- NOP, as one record update (R120). -/
theorem exec_nop (s : State) : exec .nop s = .next { s with pc := s.pc + 1 } :=
  exec_eq_effect .nop s

/-- LDA, as one record update (R121). -/
theorem exec_lda (k : Byte) (s : State) :
    exec (.lda k) s = .next { s with a := k, z := decide (k = 0), pc := s.pc + 1 } :=
  exec_eq_effect (.lda k) s

/-- LDB, as one record update (R122). -/
theorem exec_ldb (k : Byte) (s : State) : exec (.ldb k) s = .next { s with b := k, pc := s.pc + 1 } :=
  exec_eq_effect (.ldb k) s

/-- Settles O37: every operand byte decodes to NOP, and NOP is `advance`. -/
theorem nopOnlyAdvances : Obligations.NopOnlyAdvances :=
  ⟨decode_wordOf_opcode .NOP, rfl, exec_nop⟩

/-- Settles O38: the operand byte of the word is the immediate, and the two loads are `exec_lda` and `exec_ldb`. -/
theorem loadImmediateResults : Obligations.LoadImmediateResults := fun k s =>
  ⟨decode_wordOf_opcode .LDA k, exec_lda k s, decode_wordOf_opcode .LDB k, exec_ldb k s⟩

/-! ### The loads from memory -/

/-- Settles O39: the operand byte of the word is the address, and the two loads are `exec_ldaMem` and
`exec_ldbMem`, whose read never faults (R64). -/
theorem loadFromMemoryResults : Obligations.LoadFromMemoryResults := fun k s =>
  ⟨decode_wordOf_opcode .LDA_MEM k, exec_ldaMem k s, decode_wordOf_opcode .LDB_MEM k, exec_ldbMem k s⟩

/-! ### The stores -/

/-- A store, as one record update: memory, at 0xF1 the output log, and `pc` (R125, R126). What the new memory holds is
`effect_peek_of_stores`. -/
theorem exec_of_stores {i : Instr} {k v : Byte} {s : State} (h : Stores i k v s) :
    exec i s = .next { s with
      mem := (effect i s).mem, outLog := if k = 0xF1 then s.outLog ++ [v] else s.outLog, pc := s.pc + 1 } := by
  have hk : k.toNat = Config.ioOut ↔ k = 0xF1 := byte_toNat_inj k 0xF1
  have hstore := storeByte_eq k.toNat v s
  simp only [hk] at hstore
  rw [exec_eq_effect, effect_of_stores h, advance_mem]
  exact congrArg (fun t => Host.Outcome.next (advance t)) hstore

/-- Settles O40: STA stores `A` and STB stores `B`, and the rest is one argument for both. -/
theorem storeResults : Obligations.StoreResults := by
  intro k s
  have hsta : Stores (.sta k) k s.a s := .inl ⟨rfl, rfl⟩
  have hstb : Stores (.stb k) k s.b s := .inr ⟨rfl, rfl⟩
  exact ⟨decode_wordOf_opcode .STA k, decode_wordOf_opcode .STB k,
    (effect (.sta k) s).mem, (effect (.stb k) s).mem, exec_of_stores hsta, exec_of_stores hstb,
    effect_peek_of_stores hsta, effect_peek_of_stores hstb⟩

end Sys2Proof.Machine
end

section
/-! PROOFS. Arithmetic, logic, shifts and the comparison (spec/41_alu.md R140 to R150): the value of each result in
natural numbers, the two forms an instruction of the ALU leaves the state in, and the statements read off both. -/

namespace Sys2Proof.Machine

open Sys2Proof.Laws

/-! ### The results and the bit shifted out, as natural numbers -/

theorem aluAdd_toNat (a b : Byte) : (aluAdd a b).toNat = (a.toNat + b.toNat) % 256 := maskNat_toNat _

/-- A negative difference is taken modulo 256 by adding 256 before the subtraction (R142; log 13). -/
theorem aluSub_toNat (a b : Byte) : (aluSub a b).toNat = (a.toNat + 256 - b.toNat) % 256 := by
  rw [aluSub, maskInt, BitVec.toNat_ofInt]
  omega

theorem aluMul_toNat (a b : Byte) : (aluMul a b).toNat = a.toNat * b.toNat % 256 := maskNat_toNat _

theorem aluDiv_of_zero (a : Byte) {b : Byte} (hb : b = 0) : aluDiv a b = 0 := if_pos hb

/-- The quotient is at most `a`, so the mask leaves it alone (R144). -/
theorem aluDiv_toNat (a : Byte) {b : Byte} (hb : b ≠ 0) : (aluDiv a b).toNat = a.toNat / b.toNat := by
  rw [aluDiv, if_neg hb, maskNat_toNat]
  exact Nat.mod_eq_of_lt ((Nat.div_le_self _ _).trans_lt a.isLt)

theorem aluShl_toNat (a : Byte) : (aluShl a).toNat = 2 * a.toNat % 256 := by
  rw [aluShl, maskNat_toNat, Nat.shiftLeft_eq, Nat.mul_comm, Nat.pow_one]

/-- Half of a byte is a byte, so the mask leaves it alone (R149). -/
theorem aluShr_toNat (a : Byte) : (aluShr a).toNat = a.toNat / 2 := by
  rw [aluShr, maskNat_toNat, Nat.shiftRight_eq_div_pow, Nat.pow_one]
  exact Nat.mod_eq_of_lt ((Nat.div_le_self _ _).trans_lt a.isLt)

/-- Bit 7 is the top bit of the byte (R148). -/
theorem carryOfShl_eq (a : Byte) : carryOfShl a = decide (128 ≤ a.toNat) := BitVec.msb_eq_decide a

/-- Bit 0 is the parity of the byte (R149). -/
theorem carryOfShr_eq (a : Byte) : carryOfShr a = decide (a.toNat % 2 = 1) := Nat.testBit_zero a.toNat

theorem zeroFlagOfCmp_eq (a b : Byte) : zeroFlagOfCmp a b = decide (a.toNat = b.toNat) :=
  decide_eq_decide.2 (byte_toNat_inj a b).symm

/-! ### An instruction that writes `A`, as one record update -/

/-- What an instruction leaves that cannot raise and ends with a write of `A`: the value, `Z` from it, the next slot,
and all else as in the state it writes `A` in, which is the state before it but for `C` or the diagnostic log (R140). -/
theorem exec_of_writeA {i : Instr} {s t : State} {v : Byte} (hf : faultOf i s = none)
    (hc : completed i s = advance (writeA v t)) :
    exec i s = .next { t with a := v, z := decide (v = 0), pc := t.pc + 1 } := by
  rw [exec_eq_effect, effect_of_noFault hf, hc]
  rfl

/-! ### The statements -/

/-- Settles O41: each of the three writes its ALU result to `A`, and the results are `aluAdd_toNat`, `aluSub_toNat`
and `aluMul_toNat`. -/
theorem addSubMulResults : Obligations.AddSubMulResults :=
  ⟨fun j => ⟨decode_wordOf_opcode .ADD j, decode_wordOf_opcode .SUB j, decode_wordOf_opcode .MUL j⟩,
    rfl, rfl, rfl, fun s => ⟨aluAdd s.a s.b, aluSub s.a s.b, aluMul s.a s.b,
      exec_of_writeA rfl rfl, aluAdd_toNat s.a s.b,
      exec_of_writeA rfl rfl, aluSub_toNat s.a s.b,
      exec_of_writeA rfl rfl, aluMul_toNat s.a s.b⟩⟩

/-- DIV by zero writes 0 to `A` after its diagnostic, and goes on (R144). -/
theorem completed_div_zero {s : State} (hb : s.b = 0) :
    completed .div s = advance (writeA 0 (diag .divideByZero s)) := by
  rw [completed, aluDiv_of_zero s.a hb, if_pos hb, diag]

/-- DIV by another divisor logs nothing (R144). -/
theorem completed_div_nonzero {s : State} (hb : s.b ≠ 0) :
    completed .div s = advance (writeA (aluDiv s.a s.b) s) := by
  rw [completed, if_neg hb, List.append_nil]

/-- Settles O42, by the divisor; the two inequalities are those of the quotient of natural numbers. -/
theorem divideResults : Obligations.DivideResults := by
  refine ⟨decode_wordOf_opcode .DIV, rfl, fun s => ⟨fun hb => ?_, fun hb => ?_⟩⟩
  · exact exec_of_writeA rfl (completed_div_zero hb)
  · have hpos : 0 < s.b.toNat := BitVec.toNat_pos_of_ne_zero hb
    refine ⟨aluDiv s.a s.b, exec_of_writeA rfl (completed_div_nonzero hb), ?_⟩
    rw [aluDiv_toNat s.a hb]
    exact ⟨Nat.div_mul_le_self _ _, (Nat.div_lt_iff_lt_mul hpos).1 (Nat.lt_succ_self _)⟩

/-- Settles O43: each of the three writes its ALU result to `A`, and the results are bitwise. -/
theorem logicResults : Obligations.LogicResults :=
  ⟨fun j => ⟨decode_wordOf_opcode .AND j, decode_wordOf_opcode .OR j, decode_wordOf_opcode .XOR j⟩, rfl, rfl, rfl,
    fun s => ⟨aluAnd s.a s.b, aluOr s.a s.b, aluXor s.a s.b,
      exec_of_writeA rfl rfl, exec_of_writeA rfl rfl, exec_of_writeA rfl rfl,
      fun _ _ => ⟨BitVec.getLsbD_and, BitVec.getLsbD_or, BitVec.getLsbD_xor⟩⟩⟩

/-- Settles O44: each of the two writes `C` and then its ALU result to `A`; the old `C` enters neither. -/
theorem shiftResults : Obligations.ShiftResults := by
  refine ⟨fun j => ⟨decode_wordOf_opcode .SHL j, decode_wordOf_opcode .SHR j⟩, rfl, rfl, fun s =>
    ⟨aluShl s.a, aluShr s.a, ?_, aluShl_toNat s.a, ?_, aluShr_toNat s.a⟩⟩
  · rw [← carryOfShl_eq]
    exact exec_of_writeA (t := setC (carryOfShl s.a) s) rfl rfl
  · rw [← carryOfShr_eq]
    exact exec_of_writeA (t := setC (carryOfShr s.a) s) rfl rfl

/-- Settles O45: CMP writes both flags and no register. -/
theorem compareResult : Obligations.CompareResult := by
  refine ⟨decode_wordOf_opcode .CMP, rfl, fun s => ?_⟩
  rw [← zeroFlagOfCmp_eq]
  exact exec_eq_effect .cmp s

end Sys2Proof.Machine
end

section
/-! PROOFS. Jumps and halt (spec/42_jump_halt.md R170 to R174): what each of the four leaves as one record update of
the state before it, and the two states a step does not move, a jump to its own slot and a halted machine. -/

namespace Sys2Proof.Machine

open Sys2Proof.Laws

/-! ### The jumps -/

/-- JMP, as one record update (R171). -/
theorem exec_jmp (k : Byte) (s : State) : exec (.jmp k) s = .next { s with pc := BitVec.ofNat 9 k.toNat } := by
  rw [← target_eq]
  exact exec_eq_effect (.jmp k) s

/-- JZ, as one record update (R172). -/
theorem exec_jz (k : Byte) (s : State) :
    exec (.jz k) s = .next { s with pc := if s.z = true then BitVec.ofNat 9 k.toNat else s.pc + 1 } := by
  rw [← target_eq]
  exact exec_eq_effect (.jz k) s

/-- JNZ, as one record update; `completed` asks for `Z` true, so its branches stand the other way round (R173). -/
theorem exec_jnz (k : Byte) (s : State) :
    exec (.jnz k) s = .next { s with pc := if s.z = false then BitVec.ofNat 9 k.toNat else s.pc + 1 } := by
  have hflip : (if s.z = false then target k else s.pc + 1) = if s.z then s.pc + 1 else target k := by
    cases s.z <;> rfl
  rw [← target_eq, hflip]
  exact exec_eq_effect (.jnz k) s

/-- Settles O46: the operand byte of the word is the target, and the three jumps are `exec_jmp`, `exec_jz` and
`exec_jnz`. -/
theorem jumpResults : Obligations.JumpResults := fun k s =>
  ⟨decode_wordOf_opcode .JMP k, decode_wordOf_opcode .JZ k, decode_wordOf_opcode .JNZ k,
    exec_jmp k s, exec_jz k s, exec_jnz k s⟩

/-! ### A jump to its own slot -/

/-- A state that one step answers with itself is the answer of any number of steps. -/
theorem runSteps_of_step_self {s : State} (h : step s = .next s) (n : Nat) : runSteps n s = .next s := by
  induction n with
  | zero => rfl
  | succ n ih => exact (runSteps_succ n s s h).trans ih

/-- A jump to the slot `pc` stands at leaves the state as it is (R170). -/
theorem exec_jmp_self {k : Byte} {s : State} (hk : k.toNat = s.pc.toNat) : exec (.jmp k) s = .next s := by
  rw [exec_jmp, hk, BitVec.ofNat_toNat, BitVec.setWidth_eq]

/-- Settles O18: the step runs the jump, the jump answers the same state, and so does every step after it. -/
theorem jumpToItselfNeverEnds : Obligations.JumpToItselfNeverEnds := by
  intro s w k n hr hw hd hk
  have hstep : step s = .next s := (step_of_decoded hr hw hd).trans (exec_jmp_self hk)
  exact runSteps_of_step_self hstep n

/-! ### HALT -/

/-- HALT, as one record update (R174). -/
theorem exec_halt (s : State) :
    exec .halt s = .next { s with running := false, stopCause := .halt, pc := s.pc + 1 } :=
  exec_eq_effect .halt s

/-- Settles O47: every operand byte decodes to HALT, and the state `exec_halt` leaves is stopped, so the next step
answers it again. -/
theorem haltStopsTheMachine : Obligations.HaltStopsTheMachine :=
  ⟨decode_wordOf_opcode .HALT, rfl, fun s => ⟨_, exec_halt s, rfl, step_of_stopped rfl⟩⟩

end Sys2Proof.Machine
end

section
/-! PROOFS. Stack, call and return (spec/43_stack_call.md R191 to R199): what each of the five leaves as one record
update of the state before it, with room or entries enough and without, and what they come to one after the other. -/

namespace Sys2Proof.Machine

open Sys2Proof.Laws

/-! ### The two ways out of an instruction -/

/-- An instruction that raises leaves the state before it, stopped by its fault (R212). -/
theorem exec_of_fault {i : Instr} {s : State} {f : RuntimeFault} (hf : faultOf i s = some f) :
    exec i s = .next (raise f s) := by
  rw [exec_eq_effect, effect_of_fault hf]

/-- An instruction that raises nothing leaves the state of its completion. -/
theorem exec_of_noFault {i : Instr} {s : State} (hf : faultOf i s = none) : exec i s = .next (completed i s) := by
  rw [exec_eq_effect, effect_of_noFault hf]

theorem cellOf_eq (v : Byte) : cellOf v = BitVec.ofNat 9 v.toNat := target_eq v

/-! ### The pushes -/

/-- PUSH onto a stack with room, as one record update (R191). -/
theorem exec_push_of_room {s : State} (hroom : s.stackDepth ≠ some s.sp) :
    exec .push s = .next { s with stk := cellOf s.a :: s.stk, pc := s.pc + 1 } :=
  exec_of_noFault ((faultOf_push s).trans (if_neg hroom))

/-- CALL onto a stack with room, as one record update; the cell is the address after the CALL (R195). -/
theorem exec_call_of_room (k : Byte) {s : State} (hroom : s.stackDepth ≠ some s.sp) :
    exec (.call k) s = .next { s with stk := (s.pc + 1) :: s.stk, pc := target k } :=
  exec_of_noFault ((faultOf_call k s).trans (if_neg hroom))

/-- Settles O48, by the test of a full stack, which is all that decides whether PUSH raises. -/
theorem pushResults : Obligations.PushResults := by
  refine ⟨decode_wordOf_opcode .PUSH, rfl, fun s => ⟨fun hroom => ?_, fun hfull => ?_⟩⟩
  · rw [← cellOf_eq]
    exact exec_push_of_room hroom
  · exact exec_of_fault ((faultOf_push s).trans (if_pos hfull))

/-- Settles O50, by the test of a full stack, which is all that decides whether CALL raises. -/
theorem callResults : Obligations.CallResults := by
  refine fun k s => ⟨decode_wordOf_opcode .CALL k, fun hroom => ?_, fun hfull => ?_⟩
  · rw [← target_eq]
    exact exec_call_of_room k hroom
  · exact exec_of_fault ((faultOf_call k s).trans (if_pos hfull))

/-! ### The pops -/

/-- POP of an entry, as one record update (R192). -/
theorem exec_pop_of_cons {s : State} {v : StackCell} {l : List StackCell} (h : s.stk = v :: l) :
    exec .pop s = .next { s with
      a := lowByte v, z := decide (lowByte v = 0), stk := l, pc := s.pc + 1 } := by
  have hsp : s.sp ≠ 0 := by simp [State.sp, h]
  have hdone : completed .pop s = advance (writeA (lowByte v) (setStk l s)) := by simp [completed, h]
  exact exec_of_writeA ((faultOf_pop s).trans (if_neg hsp)) hdone

/-- POPP of the entry under the top, as one record update (R197). -/
theorem exec_popp_of_cons {s : State} {r v : StackCell} {l : List StackCell} (h : s.stk = r :: v :: l) :
    exec .popp s = .next { s with
      a := lowByte v, z := decide (lowByte v = 0), stk := r :: l, pc := s.pc + 1 } := by
  have hsp : ¬s.sp < 2 := by simp [State.sp, h]
  have hdone : completed .popp s = advance (writeA (lowByte v) (setStk (r :: l) s)) := by simp [completed, h]
  exact exec_of_writeA ((faultOf_popp s).trans (if_neg hsp)) hdone

/-- RET to an entry, as one record update: a cell is as wide as `pc`, so nothing is masked (R196). -/
theorem exec_ret_of_cons {s : State} {v : StackCell} {l : List StackCell} (h : s.stk = v :: l) :
    exec .ret s = .next { s with stk := l, pc := v } := by
  have hsp : s.sp ≠ 0 := by simp [State.sp, h]
  rw [exec_of_noFault rfl, completed_ret_nonempty hsp, h]
  rfl

/-- RET on the empty stack raises no fault: it stops the run with its warning (R196). -/
theorem exec_ret_empty {s : State} (hsp : s.sp = 0) :
    exec .ret s = .next { s with
      running := false, stopCause := .retEmpty, diagLog := s.diagLog ++ [.returnOnEmptyStack] } := by
  rw [exec_of_noFault rfl, completed_ret_empty hsp]
  rfl

/-- Settles O49, by the test of an empty stack; the byte is the low one of the top. -/
theorem popResults : Obligations.PopResults :=
  ⟨decode_wordOf_opcode .POP, rfl, fun s =>
    ⟨fun v _ hs => ⟨lowByte v, lowByte_toNat v, exec_pop_of_cons hs⟩,
      fun hsp => exec_of_fault ((faultOf_pop s).trans (if_pos hsp))⟩⟩

/-- Settles O51, by the test of an empty stack, for which RET has its own way out. -/
theorem returnResults : Obligations.ReturnResults :=
  ⟨decode_wordOf_opcode .RET, rfl, fun _ => ⟨fun _ _ hs => exec_ret_of_cons hs, exec_ret_empty⟩⟩

/-- Settles O52, by the test for two entries; the byte is the low one of the entry under the top. -/
theorem parameterPopResults : Obligations.ParameterPopResults :=
  ⟨decode_wordOf_opcode .POPP, rfl, fun s =>
    ⟨fun _ v _ hs => ⟨lowByte v, lowByte_toNat v, exec_popp_of_cons hs⟩,
      fun hsp => exec_of_fault ((faultOf_popp s).trans (if_pos hsp))⟩⟩

/-! ### One after the other -/

/-- Settles O53: the RET finds the cell of the CALL on top, and under it the stack before the CALL. -/
theorem callThenReturnComesBack : Obligations.CallThenReturnComesBack := fun k _ hroom =>
  ⟨_, exec_call_of_room k hroom, exec_ret_of_cons rfl⟩

/-- Settles O54: the POP finds the cell of the PUSH on top, and its low byte is the `A` that was pushed. -/
theorem pushThenPopGivesBack : Obligations.PushThenPopGivesBack := by
  refine fun s hroom => ⟨_, exec_push_of_room hroom, ?_⟩
  rw [exec_pop_of_cons rfl, lowByte_cellOf]

/-- Room for two is room for one, and for one more after it; an unbounded stack has both. -/
theorem room_twice {depth : Option Nat} {n : Nat} (h : ∀ d, depth = some d → n + 2 ≤ d) :
    depth ≠ some n ∧ depth ≠ some (n + 1) := by
  constructor
  · rintro rfl
    exact absurd (h n rfl) (by omega)
  · rintro rfl
    exact absurd (h (n + 1) rfl) (by omega)

/-- Settles O55: the CALL leaves its return address over the parameter, the POPP takes the parameter from under it,
and the RET finds the return address on top of the old stack. -/
theorem parameterIsUnderTheReturnAddress : Obligations.ParameterIsUnderTheReturnAddress := by
  intro k v s hdepth
  obtain ⟨hpush, hcall⟩ := room_twice hdepth
  exact ⟨_, _, _, exec_push_of_room hpush, exec_call_of_room k hcall, exec_popp_of_cons rfl,
    lowByte_cellOf s.a, rfl, exec_ret_of_cons rfl⟩

end Sys2Proof.Machine
end

section
/-! PROOFS. Faults (spec/60_exceptions.md R211, R212): what a fault writes, and what an instruction that raises none
leaves of the registers a fault writes. -/

namespace Sys2Proof.Machine

/-! ### What a fault writes -/

/-- Settles O29: each fault of R211 writes its own code and information, and the state it leaves is stopped. -/
theorem faultingInstructionHasNoEffect : Obligations.FaultingInstructionHasNoEffect := by
  refine ⟨fun f s => ?_, fun i s f => exec_of_fault, fun s w hr hw hop => ?_, fun n f s => ?_⟩
  · cases f with
    | unknownInstruction op => exact raise_unknownInstruction op s
    | outOfBounds | stackUnderflow | stackOverflow => rfl
  · exact step_of_illegal hr hw ((decode_refuses_iff w).2 hop)
  · exact stoppedMachineStaysAsItIs n (raise f s) rfl

/-! ### What an instruction that raises no fault leaves -/

/-- A completed instruction leaves the two fault registers, RET on the empty stack included. -/
theorem completed_faultRegisters (i : Instr) (s : State) :
    (completed i s).faultCode = s.faultCode ∧ (completed i s).faultInfo = s.faultInfo := by
  cases i with
  | sta | stb => simp [completed]
  | ret =>
    by_cases hsp : s.sp = 0
    · simp [completed_ret_empty hsp]
    · rw [completed_ret_nonempty hsp]
      exact ⟨rfl, rfl⟩
  | _ => exact ⟨rfl, rfl⟩

/-- A completed instruction keeps the stop cause, but for HALT and for RET on an empty stack, which write their own. -/
theorem completed_stopCause (i : Instr) (s : State) :
    (completed i s).stopCause = s.stopCause ∨ (completed i s).stopCause = .halt ∨
      (completed i s).stopCause = .retEmpty := by
  by_cases hhalt : i = .halt
  · subst hhalt
    exact .inr (.inl rfl)
  · by_cases hret : i = .ret ∧ s.sp = 0
    · obtain ⟨rfl, hsp⟩ := hret
      rw [completed_ret_empty hsp]
      exact .inr (.inr rfl)
    · exact .inl (completed_running i s hhalt hret).2

/-- Settles O30: where no fault is raised the instruction completes, and its completion writes no fault register. -/
theorem noOtherInstructionFaults : Obligations.NoOtherInstructionFaults := by
  intro i s hf
  obtain ⟨hcode, hinfo⟩ := completed_faultRegisters i s
  exact ⟨completed i s, exec_of_noFault hf, hcode, hinfo, completed_stopCause i s⟩

end Sys2Proof.Machine
end

section
/-! PROOFS. The operations of the host (spec/70_reset_and_hazards.md R250 to R257): for each one, when it answers a
next state and which; what it is allowed in, what it does and what it keeps are read off that. -/

namespace Sys2Proof.Machine

/-! ### The run state -/

theorem runState_eq_running_iff (s : State) : s.runState = .running ↔ s.running = true := by
  unfold State.runState
  split
  · exact iff_of_true rfl ‹_›
  · exact iff_of_false (by split <;> nofun) ‹_›

theorem runState_eq_idle_iff (s : State) : s.runState = .idle ↔ s.running = false ∧ s.stopCause = .none := by
  unfold State.runState
  cases s.running with
  | true => simp
  | false =>
    by_cases hc : s.stopCause = .none
    · simp [hc]
    · simp [hc]

/-! ### What each operation answers -/

/-- An operation that refuses but under its condition `P` answers its one state exactly under `P`. -/
theorem guarded_eq_next_iff {σ φ ρ : Type} {P : Prop} [Decidable P] {u t : σ} {r : ρ} :
    (if P then .next u else .refused r : Host.Outcome σ φ ρ) = .next t ↔ P ∧ t = u := by
  by_cases hP : P
  · simp [hP, eq_comm]
  · simp [hP]

/-- An operation that answers one state exactly under a condition is allowed exactly then. -/
theorem exists_next_iff {σ φ ρ : Type} {o : Host.Outcome σ φ ρ} {P : Prop} {u : σ}
    (h : ∀ t, o = .next t ↔ P ∧ t = u) : (∃ t, o = .next t) ↔ P :=
  ⟨fun ⟨t, ht⟩ => ((h t).1 ht).1, fun hP => ⟨u, (h u).2 ⟨hP, rfl⟩⟩⟩

/-- `load_program` is allowed when the machine is not running and the program fits, and answers the reset state with
the program in it (R250, R254). -/
theorem loadProgram_eq_next_iff {p : List InstrWord} {s t : State} :
    loadProgram p s = .next t ↔
      (s.runState ≠ .running ∧ p.length ≤ 256) ∧ t = { State.reset with imem := p, stackDepth := s.stackDepth } := by
  rw [Ne, runState_eq_running_iff, loadProgram]
  by_cases hr : s.running = true
  · simp [hr]
  · by_cases hp : p.length ≤ 256
    · simp [hr, hp, programWf, Config.maxProgLen, eq_comm]
    · simp [hr, hp, programWf, Config.maxProgLen]

/-- In the idle state an address outside memory is an error of the host's own access (R76). -/
theorem presetByte_of_outOfBounds {x : Nat} {s : State} (hidle : s.runState = .idle) (hx : 256 ≤ x) (v : Byte) :
    presetByte x v s = .fault (.outOfBounds x) := by
  have houtside : Config.memSize ≤ x := hx
  rw [presetByte, if_pos hidle, if_pos houtside]

/-- A preset is allowed in the idle state, below `MEM_SIZE`, and stores the byte straight in the array (R254, R76). -/
theorem presetByte_eq_next_iff {x : Nat} {v : Byte} {s t : State} :
    presetByte x v s = .next t ↔ (s.runState = .idle ∧ x < 256) ∧ t = { s with mem := s.mem.poke x v } := by
  by_cases hidle : s.runState = .idle
  · by_cases hx : x < 256
    · have hinside : ¬Config.memSize ≤ x := Nat.not_le.2 hx
      simp [presetByte, hidle, hx, hinside, eq_comm]
    · simp [presetByte_of_outOfBounds hidle (Nat.not_lt.1 hx), hx]
  · simp [presetByte, hidle]

/-- `run()` is allowed in the idle state and sets `running` (R255). -/
theorem run_eq_next_iff {s t : State} :
    run s = .next t ↔ s.runState = .idle ∧ t = { s with running := true } :=
  guarded_eq_next_iff

theorem run_of_not_idle {s : State} (hidle : s.runState ≠ .idle) : run s = .refused .runNotIdle :=
  if_neg hidle

/-- The end state is read in the halted state, every field of it (R257). -/
theorem readEndState_eq_next_iff {s : State} {e : EndState} :
    readEndState s = .next e ↔ s.runState = .halted ∧
      e = { a := s.a, b := s.b, pc := s.pc, z := s.z, c := s.c, sp := s.sp, stk := s.stk.reverse, mem := s.mem,
            stopCause := s.stopCause.code, faultCode := s.faultCode.code, faultInfo := s.faultInfo,
            outLog := s.outLog, diagLog := s.diagLog } :=
  guarded_eq_next_iff

/-! ### The statements -/

/-- Settles O8: a load is allowed here, and the state it answers is the reset state but for the program and the
parameter `STACK_DEPTH`, so each row of R42 is read off `State.reset`. -/
theorem loadProgramResets : Obligations.LoadProgramResets := by
  intro p s hr hp
  have hnr : s.runState ≠ .running := by simp [runState_eq_running_iff, hr]
  refine ⟨_, loadProgram_eq_next_iff.2 ⟨⟨hnr, hp⟩, rfl⟩, Memory.peek_nil, ?_⟩
  have hstk (j : Nat) : ([] : List StackCell).reverse[j]? = none := List.getElem?_nil
  exact ⟨rfl, rfl, rfl, rfl, rfl, rfl, rfl, hstk, rfl, rfl, rfl, rfl, rfl, rfl, rfl, rfl⟩

/-- Settles O10: each clause is one side of what its operation answers; a byte after the preset is `peek_poke`. -/
theorem hostOperationsAllowedWhen : Obligations.HostOperationsAllowedWhen := by
  intro s p x v
  refine ⟨exists_next_iff fun _ => loadProgram_eq_next_iff, exists_next_iff fun _ => presetByte_eq_next_iff,
    fun hidle hx => presetByte_of_outOfBounds hidle hx v, fun t ht => ?preset,
    exists_next_iff fun _ => run_eq_next_iff, fun t ht => ?run,
    fun hhalted => run_of_not_idle (by simp [hhalted]), rfl,
    exists_next_iff fun _ => readEndState_eq_next_iff, fun e he => ?endState⟩
  case preset =>
    obtain ⟨-, rfl⟩ := presetByte_eq_next_iff.1 ht
    exact ⟨rfl, Memory.peek_poke s.mem x v⟩
  case run =>
    obtain ⟨-, rfl⟩ := run_eq_next_iff.1 ht
    exact ⟨rfl, (runState_eq_running_iff _).2 rfl⟩
  case endState =>
    obtain ⟨-, rfl⟩ := readEndState_eq_next_iff.1 he
    exact ⟨rfl, rfl, rfl, rfl, rfl, rfl, fun _ => rfl, rfl, rfl, rfl, rfl, rfl, rfl⟩

/-- Settles O11: a load answers the reset state with a program that fits, a preset keeps memory canonical, and a run
starts from a state without a stop cause. -/
theorem hostOperationsKeepTheInvariant : Obligations.HostOperationsKeepTheInvariant := by
  intro s t h
  refine ⟨fun p ht => ?load, fun x v ht => ?preset, fun ht => ?run⟩
  case load =>
    obtain ⟨⟨-, hp⟩, rfl⟩ := loadProgram_eq_next_iff.1 ht
    exact { resetMeetsTheInvariant.2 s.stackDepth h.depth_pos with prog_len := hp }
  case preset =>
    obtain ⟨⟨-, hx⟩, rfl⟩ := presetByte_eq_next_iff.1 ht
    exact { h with mem_wf := Memory.wf_poke s.mem x v h.mem_wf hx }
  case run =>
    obtain ⟨hidle, rfl⟩ := run_eq_next_iff.1 ht
    obtain ⟨-, hcause⟩ := (runState_eq_idle_iff s).1 hidle
    exact { h with running_cause := fun _ => hcause }

end Sys2Proof.Machine
end
